-- ==== Sys2Proof/Word.lean ====
section
/-!
DEFINITION. The words of B64DP: every width that the spec names (00_scope.md R5, R7, R8).
All of them are unsigned bit vectors; bit 0 is the least significant bit (R7).
-/

namespace Sys2Proof

/-- The 32-bit command word and the 32-bit RDATA of a response (R70, R76). -/
abbrev Word := BitVec 32

/-- An 8-bit value: an input or output byte, or the ASCII code of a character (R5, R10). -/
abbrev Byte := BitVec 8

/-- A 6-bit Base64 index, 0 to 63 (R5). -/
abbrev Index := BitVec 6

/-- A 24-bit group: 3 bytes, or 4 indices (R5, R13 "Tuple/group"). -/
abbrev Group := BitVec 24

end Sys2Proof
end

