-- ==== Sys2Proof/Syntax.lean ====
section
/-!
DEFINITION. The commands of B64DP, one constructor per row of spec/opcode_table.json (30_encoding.md R70 to R72, R78), and
the reasons for which a command word is none of them (R75).
-/

namespace Sys2Proof

/-- A command. Every operand is a plain unsigned field of the command word (R78); none names a register. -/
inductive Instr where
  /-- NOP (42_control.md R140). -/
  | nop
  /-- ENC_GROUP CNT, B0, B1, B2 (40_encoder.md R95): CNT real bytes, in stream order. -/
  | encGroup (cnt : BitVec 2) (b0 b1 b2 : Byte)
  /-- DEC_START (41_decoder.md R117). -/
  | decStart
  /-- DEC_CHAR C (41_decoder.md R118). -/
  | decChar (c : Byte)
  /-- DEC_END (41_decoder.md R125). -/
  | decEnd
  /-- QUERY (42_control.md R141). -/
  | query
  deriving DecidableEq, Repr

/-- Why a word is ILLEGAL: the six lines of 30_encoding.md R75. No output shows which of them held. -/
inductive IllegalReason where
  /-- RSV is not 0. -/
  | reservedBits
  /-- OP is 0x6 to 0xF (R74). -/
  | reservedOpcode
  /-- CNT is not 0 and OP is not 0x1. -/
  | countOutsideEncGroup
  /-- An ENC_GROUP word with CNT = 0. -/
  | encGroupCountZero
  /-- A Z-format word with DATA not 0. -/
  | operandBits
  /-- A DEC_CHAR word with DATA[23:8] not 0. -/
  | charUpperBits
  deriving DecidableEq, Repr

end Sys2Proof
end

