-- ==== Sys2Proof/WellFormed.lean ====
section
/-!
DEFINITION. Which terms of `Instr` are commands of B64DP. The widths of the fields are in their types; the one condition left is
the constraint column of the opcode table: ENC_GROUP has CNT in 1..3 (30_encoding.md R72, R80; 40_encoder.md R95).
-/

namespace Sys2Proof

/-- The check: CNT of an ENC_GROUP is not 0. -/
def Instr.wellFormed : Instr → Bool
  | .nop => true
  | .encGroup cnt _ _ _ => cnt != 0
  | .decStart => true
  | .decChar _ => true
  | .decEnd => true
  | .query => true

/-- `i` is a command that some word encodes. -/
abbrev Instr.WellFormed (i : Instr) : Prop := i.wellFormed = true

end Sys2Proof
end

