-- ==== Sys2Proof/Decode.lean ====
section
/-!
DEFINITION. The command decoder and the encoder (30_encoding.md R70 to R75, R79, R80).

A command is one 32-bit word on `cmd_data`; there is no byte stream, no shorter or longer form and no mode that changes
decoding (R70), so the decoder takes a word. It is total, and it names why it rejects a word.
-/

namespace Sys2Proof

/-! ## The fields of a command word (R70) -/

/-- OP = word[31:28]. -/
def opField (w : Word) : BitVec 4 := w.extractLsb' 28 4

/-- CNT = word[27:26]. -/
def cntField (w : Word) : BitVec 2 := w.extractLsb' 26 2

/-- RSV = word[25:24]. -/
def rsvField (w : Word) : BitVec 2 := w.extractLsb' 24 2

/-- DATA = word[23:0]. -/
def dataField (w : Word) : Group := w.extractLsb' 0 24

/-- Lane k of DATA, `DATA[23-8k : 16-8k]` (20_memory.md R56): B0, B1 and B2 for k = 0, 1, 2. -/
def dataLane (d : Group) (k : Fin 3) : Byte := d.extractLsb' (16 - 8 * k.val) 8

/-- DATA[23:8], which format C needs to be 0. -/
def charUpper (d : Group) : BitVec 16 := d.extractLsb' 8 16

/-! ## The decoder (R73) -/

/-- Format Z: nothing but the opcode may be set. -/
def decodeZ (i : Instr) (cnt : BitVec 2) (data : Group) : Except IllegalReason Instr :=
  if cnt ≠ 0 then .error .countOutsideEncGroup
  else if data ≠ 0 then .error .operandBits
  else .ok i

/-- Format G: CNT must not be 0; the three lanes of DATA are the bytes. -/
def decodeG (cnt : BitVec 2) (data : Group) : Except IllegalReason Instr :=
  if cnt = 0 then .error .encGroupCountZero
  else .ok (.encGroup cnt (dataLane data 0) (dataLane data 1) (dataLane data 2))

/-- Format C: CNT and DATA[23:8] must be 0; DATA[7:0] is the character. -/
def decodeC (cnt : BitVec 2) (data : Group) : Except IllegalReason Instr :=
  if cnt ≠ 0 then .error .countOutsideEncGroup
  else if charUpper data ≠ 0 then .error .charUpperBits
  else .ok (.decChar (dataLane data 2))

/-- The opcode map of R72, for a word whose RSV is 0. -/
def decodeOp (op : BitVec 4) (cnt : BitVec 2) (data : Group) : Except IllegalReason Instr :=
  if op = 0x0 then decodeZ .nop cnt data
  else if op = 0x1 then decodeG cnt data
  else if op = 0x2 then decodeZ .decStart cnt data
  else if op = 0x3 then decodeC cnt data
  else if op = 0x4 then decodeZ .decEnd cnt data
  else if op = 0x5 then decodeZ .query cnt data
  else .error .reservedOpcode

/-- `decode(word)` of R73; an error is the spec's ILLEGAL. Which of R75's reasons is named when several hold follows the order of
R73's pseudocode; no output shows it. -/
def decode (w : Word) : Except IllegalReason Instr :=
  if rsvField w ≠ 0 then .error .reservedBits
  else decodeOp (opField w) (cntField w) (dataField w)

/-! ## The encoder (R71, R80) -/

/-- `{op, cnt, rsv = 00, data}`, every bit placed (R71). -/
def assembleWord (op : BitVec 4) (cnt : BitVec 2) (data : Group) : Word := op ++ cnt ++ (0 : BitVec 2) ++ data

/-- The word of a command, by the base forms of R80. -/
def encode : Instr → Word
  | .nop => assembleWord 0x0 0 0
  | .encGroup cnt b0 b1 b2 => assembleWord 0x1 cnt (b0 ++ b1 ++ b2)
  | .decStart => assembleWord 0x2 0 0
  | .decChar c => assembleWord 0x3 0 ((0 : BitVec 16) ++ c)
  | .decEnd => assembleWord 0x4 0 0
  | .query => assembleWord 0x5 0 0

/-! ## The host's view of the opcode table -/

/-- A command word from the `nbits` low bits of `w`, every bit above them 0. A command arrives whole on the 32 pins of `cmd_data`, so
the table's numbering (bit 0 the least significant) is the word's own and there is no byte order to choose. -/
def tableWord (nbits w : Nat) : Word := BitVec.ofNat 32 (w % 2 ^ nbits)

/-- What the decoder reads from a word numbered as spec/opcode_table.json numbers it. -/
def decodeTableWord (nbits w : Nat) : Option Instr :=
  match decode (tableWord nbits w) with
  | .ok i => some i
  | .error _ => none

end Sys2Proof
end

