-- ==== Sys2Proof/Config.lean ====
section
/-!
DEFINITION. What an implementation of B64DP fixes at build time: the three open parameters of 00_scope.md R6.

The spec leaves all three open (decisions D11, D25, D31) and asks that a model take each as an argument. The argument
is the field `params` of `Machine.State`, which no step changes; what it holds at reset is the three constants below, which
have no body, so that nothing in Lean can find out what they are (notes/assumptions/1.md).
-/

namespace Sys2Proof

/-- The parameters P of `step(P, S, cmd)` (R6, R11). Only `nulTerminates` changes any value a rule computes. -/
structure Params where
  /-- `NUL_TERMINATES`: the character 0x00 is an end-of-input marker (true) or invalid (false). -/
  nulTerminates : Bool
  /-- `RSP_LATENCY`: cycles from acceptance to the earliest cycle the response can be valid; at least 1. -/
  rspLatency : Nat
  /-- `RSP_DEPTH`: how many responses can be in flight; at least 1. -/
  rspDepth : Nat
  deriving DecidableEq, Repr

/-- The bounds that R6 puts on the parameters. -/
abbrev Params.WellFormed (p : Params) : Prop := 1 ≤ p.rspLatency ∧ 1 ≤ p.rspDepth

/-- `NUL_TERMINATES` of the chip that is modelled: OPEN in the spec (D11), so it has no body. -/
opaque Config.nulTerminates : Bool

/-- `RSP_LATENCY` less 1: OPEN in the spec (D25), so it has no body. -/
opaque Config.rspLatencyLessOne : Nat

/-- `RSP_DEPTH` less 1: OPEN in the spec (D31), so it has no body. -/
opaque Config.rspDepthLessOne : Nat

/-- The chip's parameters. The two `+ 1` are R6's "at least 1". -/
def Config.params : Params where
  nulTerminates := Config.nulTerminates
  rspLatency := Config.rspLatencyLessOne + 1
  rspDepth := Config.rspDepthLessOne + 1

end Sys2Proof
end

