-- ==== Sys2Proof/Machine/State.lean ====
section
/-!
DEFINITION. The state of B64DP as plain data (10_state.md R20 to R22, R29, R32 to R35; 20_memory.md R50 to R54), the reasons a step
can stop, and the state after reset.

B64DP has no program counter, no general register beyond R20, no memory and no address space (R33), so State has none of them.
The fields that are the model's own, not the spec's, are `wasReset`, `cmdHeld`, `rspRaised`, `inputs` and `taken`: each says which
rule needs it.
-/

namespace Sys2Proof.Machine

/-- `S.DSTATE`, the state of the decode operation (R29). Its 2-bit code is `DState.code` (Machine/Flags.lean). -/
inductive DState where
  /-- IDLE (0): no decode operation is open. -/
  | idle
  /-- ACTIVE (1): a decode operation is open and scanning characters. -/
  | active
  /-- DONE (2): the operation has met a terminator. -/
  | done
  /-- FAIL (3): the operation has met an invalid character. -/
  | fail
  deriving DecidableEq, Repr

/-- The architectural state S: exactly the five fields of R20. -/
structure Arch where
  /-- `S.DSTATE`. -/
  dstate : DState
  /-- `S.N`, the count of pending indices, 0 to 3 (R21). -/
  n : BitVec 2
  /-- `S.T0`, accumulator position 0 (R22). -/
  t0 : Index
  /-- `S.T1`, accumulator position 1. -/
  t1 : Index
  /-- `S.T2`, accumulator position 2. -/
  t2 : Index
  deriving DecidableEq, Repr

/-- The status of a response, RST (60_exceptions.md R150). The codes 5 to 7 are never produced, so they have no name. The 3-bit code
is `Status.code` (Machine/Flags.lean). -/
inductive Status where
  | ok
  | ignored
  | invalidChar
  | illegalCmd
  | notActive
  deriving DecidableEq, Repr

/-- A response: `respond(st, cnt, data)` (30_encoding.md R76). -/
structure Response where
  /-- RST, on `rsp_status`. -/
  rst : Status
  /-- RCNT, on `rsp_cnt`: how many lanes of RDATA are stream bytes. -/
  rcnt : BitVec 3
  /-- RDATA, on `rsp_data`. -/
  rdata : Word
  deriving DecidableEq, Repr

/-- A response in flight (R32): accepted, not yet taken by the host. -/
structure InFlight where
  rsp : Response
  /-- How many more cycles must pass before the response may be offered (20_memory.md R54, `RSP_LATENCY`). -/
  wait : Nat
  deriving DecidableEq, Repr

/-- One cycle of `clk`: the input pins sampled at its rising edge (20_memory.md R50, R51), and the two choices of timing that the spec
leaves to an implementation in that cycle (70_reset_and_hazards.md R180). -/
structure Cycle where
  /-- `rst`. -/
  rst : Bool
  /-- `cmd_valid`. -/
  cmdValid : Bool
  /-- `cmd_data`. -/
  cmdData : Word
  /-- `rsp_ready`. -/
  rspReady : Bool
  /-- The implementation holds `cmd_ready` low in this cycle although there is room for a response (open: R52, R180). -/
  cmdStall : Bool
  /-- The implementation does not yet raise `rsp_valid` in this cycle although `RSP_LATENCY` has passed (open: R54 says only "no
  earlier than", R180). -/
  rspHold : Bool
  deriving DecidableEq, Repr

/-- The state of one B64DP and of its channels. -/
structure State where
  /-- S (R20). -/
  arch : Arch
  /-- The responses in flight, oldest first (R32). -/
  inFlight : List InFlight
  /-- `rsp_valid` was 1 in the last cycle and the response was not taken: R54 keeps it at 1. -/
  rspRaised : Bool
  /-- The word the host offered in the last cycle and that was not accepted: R52 keeps it on `cmd_data`. -/
  cmdHeld : Option Word
  /-- There has been a rising edge with `rst` = 1 since power-up (R35, R174). -/
  wasReset : Bool
  /-- P, the build-time parameters (R6); no step changes them (R179). -/
  params : Params
  /-- The cycles to come, next one first: what the pins will carry. The step reads one. -/
  inputs : List Cycle
  /-- The responses the host has taken since the last reset, in the order it took them (R55, R177). -/
  taken : List Response
  deriving DecidableEq, Repr

/-- Why the machine stops. -/
inductive Fault where
  /-- Raised by `step` at a rising edge with `rst` = 0 before the first reset: R35 "it is stuck, with no command accepted and no
  response defined". Safe: the spec gives no step there. -/
  | notReset
  deriving DecidableEq, Repr

/-- Why a step has no meaning. -/
inductive Refusal where
  /-- Raised by an arm of `exec` for an instruction that has no meaning yet. Safe: nothing is claimed of it. -/
  | notModelled (mnemonic : String)
  /-- Raised by `step` when the host drops or changes a command it offered before the command is accepted, against R52:
  93_implementation_defined.md H6 "`refuse`: the spec gives no meaning to such a cycle". Safe: no claim is made of such a run. -/
  | handshakeBroken
  deriving DecidableEq, Repr

/-- The registers after reset (R34). -/
def Arch.reset : Arch where
  dstate := .idle
  n := 0
  t0 := 0
  t1 := 0
  t2 := 0

/-- The state right after reset of a B64DP built with the parameters `p`, with nothing on its pins yet (R34, R170, R172). -/
def State.resetWith (p : Params) : State where
  arch := Arch.reset
  inFlight := []
  rspRaised := false
  cmdHeld := none
  wasReset := true
  params := p
  inputs := []
  taken := []

/-- The machine right after reset. Its parameters are the constants of Config, whose values are open. -/
def State.reset : State := State.resetWith Config.params

end Sys2Proof.Machine
end

