-- ==== Sys2Proof/Machine/Rom.lean ====
section
/-!
DEFINITION. The two look-up tables (10_state.md R23 to R28). Both are ROMs: constants, not state, with no write port (R24, R26).
-/

namespace Sys2Proof.Machine

/-- The class that the C2I ROM gives a character (R26). -/
inductive CharClass where
  /-- INVALID (0): none of the others. -/
  | invalid
  /-- ALPHA (1): an alphabet character. -/
  | alpha
  /-- WS (2): whitespace. -/
  | ws
  /-- PAD (3): the padding character. -/
  | pad
  /-- TERM (4): the in-band end-of-input marker, only when `NUL_TERMINATES`. -/
  | term
  deriving DecidableEq, Repr

/-- The numeric code of a class (R26). The codes 5 to 7 never occur, and no output shows any of them (D36). -/
def CharClass.code : CharClass → BitVec 3
  | .invalid => 0
  | .alpha => 1
  | .ws => 2
  | .pad => 3
  | .term => 4

/-- An entry of the C2I ROM (R26). -/
structure C2IEntry where
  cls : CharClass
  index : Index
  deriving DecidableEq, Repr

/-- The entry as the 9 bits of the ROM: CLASS in [8:6], INDEX in [5:0] (R26). -/
def C2IEntry.bits (e : C2IEntry) : BitVec 9 := e.cls.code ++ e.index

/-- The padding character, `'='` (R23). -/
def padChar : Byte := 0x3D

/-- The I2C ROM: the alphabet A-Z, a-z, 0-9, +, / in that order (R24). -/
def i2c (i : Index) : Byte :=
  let z := i.setWidth 8
  if z ≤ 25 then 0x41 + z
  else if z ≤ 51 then 0x61 + (z - 26)
  else if z ≤ 61 then 0x30 + (z - 52)
  else if z = 62 then 0x2B
  else 0x2F

/-- The six whitespace codes: backspace, tab, newline, form-feed, carriage return, space (R27; D27: no vertical tab). -/
def isSpaceCode (c : Byte) : Bool :=
  c == 0x08 || c == 0x09 || c == 0x0A || c == 0x0C || c == 0x0D || c == 0x20

/-- The C2I ROM of a chip whose `NUL_TERMINATES` is `nul` (R27). -/
def c2i (nul : Bool) (c : Byte) : C2IEntry :=
  if 0x41 ≤ c ∧ c ≤ 0x5A then ⟨.alpha, (c - 0x41).setWidth 6⟩
  else if 0x61 ≤ c ∧ c ≤ 0x7A then ⟨.alpha, (c - 0x61 + 26).setWidth 6⟩
  else if 0x30 ≤ c ∧ c ≤ 0x39 then ⟨.alpha, (c - 0x30 + 52).setWidth 6⟩
  else if c = 0x2B then ⟨.alpha, 62⟩
  else if c = 0x2F then ⟨.alpha, 63⟩
  else if isSpaceCode c then ⟨.ws, 0⟩
  else if c = padChar then ⟨.pad, 0⟩
  else if c = 0x00 ∧ nul then ⟨.term, 0⟩
  else ⟨.invalid, 0⟩

end Sys2Proof.Machine
end

