-- ==== Sys2Proof/Machine/Operands.lean ====
section
/-!
DEFINITION. How operands and results are put together: the byte lanes (20_memory.md R56), the 6-bit barrel shifter, the packers, the
input mask and the padding logic of the encoder (40_encoder.md R91 to R94), and the masked accumulator, the byte extractor and
the flush logic of the decoder (41_decoder.md R112 to R116).
-/

namespace Sys2Proof.Machine

/-! ## Lanes -/

/-- RDATA from its four lanes; lane 0 is RDATA[31:24], first in stream order (R56). -/
def lanes (l0 l1 l2 l3 : Byte) : Word := l0 ++ l1 ++ l2 ++ l3

/-- Lane k of RDATA, `RDATA[31-8k : 24-8k]` (R56). -/
def lane (w : Word) (k : Fin 4) : Byte := w.extractLsb' (24 - 8 * k.val) 8

/-- The stream output of a response: lanes 0 to RCNT-1 of RDATA, in lane order (R57). -/
def Response.stream (r : Response) : List Byte :=
  [lane r.rdata 0, lane r.rdata 1, lane r.rdata 2, lane r.rdata 3].take r.rcnt.toNat

/-! ## The barrel shifter (R93) -/

/-- `s(k) = 18 - 6k`. -/
def shiftAmount (k : Fin 4) : Nat := 18 - 6 * k.val

/-- `extract6(v, k) = (v >> s(k)) & 0x3F`. -/
def extract6 (v : Group) (k : Fin 4) : Index := (v >>> shiftAmount k).setWidth 6

/-- `insert6(i, k) = zext_24(i) << s(k)`. -/
def insert6 (i : Index) (k : Fin 4) : Group := i.setWidth 24 <<< shiftAmount k

/-! ## The encoder's operands (R91, R92, R94) -/

/-- `pack3(b0, b1, b2)` (R91). -/
def pack3 (b0 b1 b2 : Byte) : Group := b0.setWidth 24 <<< 16 ||| b1.setWidth 24 <<< 8 ||| b2.setWidth 24

/-- The group of an ENC_GROUP: the bytes beyond CNT are zeroed before packing (R92). -/
def maskedGroup (cnt : BitVec 2) (b0 b1 b2 : Byte) : Group :=
  pack3 b0 (if 2 ≤ cnt then b1 else 0) (if cnt = 3 then b2 else 0)

/-- The character of output lane k: real while k ≤ CNT, else padding (R94). -/
def laneChar (cnt : BitVec 2) (v : Group) (k : Fin 4) : Byte :=
  if k.val ≤ cnt.toNat then i2c (extract6 v k) else padChar

/-- The four characters of a group as RDATA (R95). -/
def groupChars (cnt : BitVec 2) (v : Group) : Word :=
  lanes (laneChar cnt v 0) (laneChar cnt v 1) (laneChar cnt v 2) (laneChar cnt v 3)

/-! ## The decoder's operands (R112 to R116) -/

/-- The index register T0, T1 or T2. -/
def Arch.t (S : Arch) (i : Fin 3) : Index :=
  match i with
  | 0 => S.t0
  | 1 => S.t1
  | 2 => S.t2

/-- `a(S, i)`, the masked accumulator: 0 at or beyond N (R112). -/
def Arch.masked (S : Arch) (i : Fin 3) : Index := if i.val < S.n.toNat then S.t i else 0

/-- `pack4(i0, i1, i2, i3)` (R113). -/
def pack4 (i0 i1 i2 i3 : Index) : Group := insert6 i0 0 ||| insert6 i1 1 ||| insert6 i2 2 ||| insert6 i3 3

/-- `extract8(v, j) = (v >> (16 - 8j)) & 0xFF` (R114). -/
def extract8 (v : Group) (j : Fin 3) : Byte := (v >>> (16 - 8 * j.val)).setWidth 8

/-- `nb(n) = max(n - 1, 0)`, the bytes that a terminator with `n` pending indices yields (R115). -/
def flushCount (n : BitVec 2) : Nat := n.toNat - 1

/-- `emit(v, nb)`: the first `nb` bytes of a group in lanes 0 to nb-1, zero elsewhere (R116). -/
def emit (v : Group) (nb : Nat) : Word :=
  lanes (if 1 ≤ nb then extract8 v 0 else 0) (if 2 ≤ nb then extract8 v 1 else 0) (if 3 ≤ nb then extract8 v 2 else 0) 0

end Sys2Proof.Machine
end

