-- ==== Sys2Proof/Machine/Flags.lean ====
section
/-!
DEFINITION. B64DP has no flags register: each response's status plays that part (10_state.md R33). This file holds the codes of the
statuses and of DSTATE, and the STATUS view that QUERY reads (60_exceptions.md R150; 10_state.md R29, R31).
-/

namespace Sys2Proof.Machine

/-- The 3-bit code on `rsp_status` (R150). -/
def Status.code : Status → BitVec 3
  | .ok => 0
  | .ignored => 1
  | .invalidChar => 2
  | .illegalCmd => 3
  | .notActive => 4

/-- The 2-bit code of DSTATE (R29). -/
def DState.code : DState → BitVec 2
  | .idle => 0
  | .active => 1
  | .done => 2
  | .fail => 3

/-- `STATUS(S, P) = {S.T0, S.T1, S.T2, 5'b0, NULT, 4'b0, S.N, S.DSTATE}` (R31). -/
def statusView (nul : Bool) (S : Arch) : Word :=
  S.t0 ++ S.t1 ++ S.t2 ++ (0 : BitVec 5) ++ BitVec.ofBool nul ++ (0 : BitVec 4) ++ S.n ++ S.dstate.code

end Sys2Proof.Machine
end

