-- ==== Sys2Proof/Machine/Ops.lean ====
section
/-!
DEFINITION. The operations the commands share: ending a command with its one response (00_scope.md R9; 30_encoding.md R76), the answer
to an illegal word, and the transitions of the decode operation (10_state.md R22; 41_decoder.md R117, R119, R121, R123).

B64DP takes no exception in the sense of a trap: an error is a response with an error status, nothing is saved and nothing
redirected (60_exceptions.md R159). `State.completeIllegal` and `Arch.failed` are therefore all there is of taking an exception, and there is
no return from one.
-/

namespace Sys2Proof.Machine

/-- `respond(st, cnt, data)` (R76). -/
def respond (st : Status) (cnt : Nat) (data : Word) : Response := ⟨st, BitVec.ofNat 3 cnt, data⟩

/-- The end of every command: the new S is written and the one response joins the responses in flight, both at once (R9, R60).
The response may be offered `RSP_LATENCY` cycles after the acceptance, that is, after `RSP_LATENCY - 1` cycles between (R54). -/
def State.complete (r : Arch × Response) (s : State) : State :=
  { s with arch := r.1, inFlight := s.inFlight ++ [⟨r.2, s.params.rspLatency - 1⟩] }

/-- The answer to an ILLEGAL word: S unchanged, status ILLEGAL_CMD (30_encoding.md R75; 60_exceptions.md R151). -/
def State.completeIllegal (s : State) : State := s.complete (s.arch, respond .illegalCmd 0 0)

/-- N and T0 to T2 written to zero (R22). -/
def Arch.cleared (S : Arch) : Arch := { S with n := 0, t0 := 0, t1 := 0, t2 := 0 }

/-- The registers that a transition of the decode operation to `next` leaves: DSTATE is `next` and the accumulator is cleared (R22, R30). -/
def Arch.moved (next : DState) (S : Arch) : Arch := { S.cleared with dstate := next }

/-- `S.T[S.N] <- idx; S.N <- S.N + 1`, for N below 3 (R119). -/
def Arch.pushed (idx : Index) (S : Arch) : Arch :=
  if S.n = 0 then { S with t0 := idx, n := 1 }
  else if S.n = 1 then { S with t1 := idx, n := 2 }
  else { S with t2 := idx, n := 3 }

/-- `DEC_CHAR_ALPHA(idx)` (R119). -/
def Arch.alpha (idx : Index) (S : Arch) : Arch × Response :=
  if S.n = 3 then (S.cleared, respond .ok 3 (emit (pack4 S.t0 S.t1 S.t2 idx) 3))
  else (S.pushed idx, respond .ok 0 0)

/-- `DEC_TERMINATE(next)`: flush the pending indices and move to `next` (R121). -/
def Arch.terminated (next : DState) (S : Arch) : Arch × Response :=
  (S.moved next,
    respond .ok (flushCount S.n) (emit (pack4 (S.masked 0) (S.masked 1) (S.masked 2) 0) (flushCount S.n)))

/-- `DEC_FAIL`: the InvalidCharacter error (R123; 60_exceptions.md R152). -/
def Arch.failed (S : Arch) : Arch × Response := (S.moved .fail, respond .invalidChar 0 0)

end Sys2Proof.Machine
end

