-- ==== Sys2Proof/Machine/Channel.lean ====
section
/-!
DEFINITION. The ports: what one rising edge of `clk` does to the command and response channels (20_memory.md R50 to R54;
60_exceptions.md R157, R166; 70_reset_and_hazards.md R170, R171, R174).

A cycle is named by its input pins (`Cycle`). Its outputs are functions of the state before the edge, except that `cmd_ready` also reads
`rsp_ready` (R51, R53) and `rst` (R53), and that the two open choices of timing stand in the cycle.
-/

namespace Sys2Proof.Machine

/-- The cycle when the schedule `inputs` is empty: no reset, no response taken, and the host keeps offering the word it holds, if any,
as R52 obliges it to. -/
def Cycle.quiet (held : Option Word) : Cycle where
  rst := false
  cmdValid := held.isSome
  cmdData := held.getD 0
  rspReady := false
  cmdStall := false
  rspHold := false

/-- The cycle that offers `w` and nothing else, with the implementation not stalling. -/
def Cycle.offer (w : Word) : Cycle := Cycle.quiet (some w)

/-- What the pins carry in this cycle. -/
def State.nextCycle (s : State) : Cycle :=
  match s.inputs with
  | [] => Cycle.quiet s.cmdHeld
  | c :: _ => c

/-! ## The outputs of a cycle -/

/-- The response on the response port: `rsp_valid` is 1 exactly when there is one, and the three data pins then carry it (R50, R54).
The oldest response is offered once `RSP_LATENCY` has passed; the implementation may offer it later still, but once offered it stays. -/
def State.offered (s : State) (c : Cycle) : Option Response :=
  match s.inFlight with
  | [] => none
  | e :: _ => if e.wait = 0 ∧ (s.rspRaised ∨ c.rspHold = false) then some e.rsp else none

/-- `rsp_valid`. -/
def State.rspValid (s : State) (c : Cycle) : Bool := (s.offered c).isSome

/-- What the pins `rsp_data`, `rsp_cnt` and `rsp_status` carry while `rsp_valid` is 1 (R50, R76). The spec gives them no value while it is 0,
and neither does the model. -/
def State.rspPins (s : State) (c : Cycle) : Option (Word × BitVec 3 × BitVec 3) :=
  (s.offered c).map fun r => (r.rdata, r.rcnt, r.rst.code)

/-- One cycle less to wait. -/
def InFlight.aged (e : InFlight) : InFlight := { e with wait := e.wait - 1 }

/-- What the edge does on the response side when `rst` = 0: the offered response is taken if `rsp_ready`, else it stays raised;
the others come one cycle closer (R54). -/
def State.served (s : State) (c : Cycle) : State :=
  match s.offered c with
  | none => { s with inFlight := s.inFlight.map InFlight.aged, rspRaised := false }
  | some r =>
    if c.rspReady then
      { s with inFlight := s.inFlight.tail.map InFlight.aged, rspRaised := false, taken := s.taken ++ [r] }
    else { s with inFlight := s.inFlight.map InFlight.aged, rspRaised := true }

/-- There is room for one more response: fewer than `RSP_DEPTH` in flight. -/
def State.hasRoom (s : State) : Bool :=
  match s.params.rspDepth - s.inFlight.length with
  | 0 => false
  | _ + 1 => true

/-- `cmd_ready`: 0 while `rst` = 1, and 0 when one more response would exceed `RSP_DEPTH` after the one taken in this cycle (R53);
else 1 unless the implementation stalls. DEDUCED (notes/assumptions/19.md): it may be 1 in the very first cycle with `rst` = 0 after
reset, so that a command can be accepted at that cycle's edge already. -/
def State.cmdReady (s : State) (c : Cycle) : Bool := !c.rst && (s.served c).hasRoom && !c.cmdStall

/-- The host drops or changes a command that it offered and that was not accepted, against R52. -/
def State.breaksHandshake (s : State) (c : Cycle) : Bool :=
  match s.cmdHeld with
  | none => false
  | some w => !(c.cmdValid && c.cmdData == w)

/-! ## The edge -/

/-- The state after a rising edge with `rst` = 1 (R170): S as after reset, every response in flight discarded, whatever was before;
the parameters and the cycles to come stay. -/
def State.afterReset (s : State) : State := { State.resetWith s.params with inputs := s.inputs }

/-- What a rising edge does, up to the meaning of the command it accepts. -/
inductive Edge where
  /-- `rst` = 1. -/
  | reset (s : State)
  /-- `rst` = 0 and there has been no reset (R35). -/
  | notReset
  /-- The host breaks the command handshake (R52). -/
  | broken
  /-- No command is accepted; `s` is the state after the edge. -/
  | idle (s : State)
  /-- The word `w` is accepted; `s` is the state its command starts from. -/
  | accept (w : Word) (s : State)
  deriving DecidableEq, Repr

/-- The next rising edge. A command is accepted exactly when `rst` = 0, `cmd_valid` = 1 and `cmd_ready` = 1 (R52). -/
def State.edge (s : State) : Edge :=
  let c := s.nextCycle
  let s₁ := { s with inputs := s.inputs.tail }
  if c.rst then .reset s₁.afterReset
  else if s.wasReset = false then .notReset
  else if s.breaksHandshake c then .broken
  else if c.cmdValid = false then .idle { s₁.served c with cmdHeld := none }
  else if s.cmdReady c then .accept c.cmdData { s₁.served c with cmdHeld := none }
  else .idle { s₁.served c with cmdHeld := some c.cmdData }

/-- The machine with `w` on the command channel of its next cycle, and the host having taken every response in flight, so that there is
room and the command is accepted. -/
def State.withCommand (s : State) (w : Word) : State :=
  { s with
    inFlight := []
    rspRaised := false
    cmdHeld := none
    wasReset := true
    inputs := Cycle.offer w :: s.inputs
    taken := s.taken ++ s.inFlight.map InFlight.rsp }

end Sys2Proof.Machine
end

