-- ==== Sys2Proof/Machine/Control.lean ====
section
/-!
DEFINITION. The control commands NOP and QUERY (42_control.md).
-/

namespace Sys2Proof.Machine

/-- NOP: respond(OK, 0, 0), S unchanged (R140). -/
def execNop (s : State) : Host.Outcome State Fault Refusal :=
  .next (s.complete (s.arch, respond .ok 0 0))

/-- QUERY: respond(OK, 0, STATUS(S, P)), S unchanged (R141). -/
def execQuery (s : State) : Host.Outcome State Fault Refusal :=
  .next (s.complete (s.arch, respond .ok 0 (statusView s.params.nulTerminates s.arch)))

end Sys2Proof.Machine
end

