-- ==== Sys2Proof/Machine/Decoder.lean ====
section
/-!
DEFINITION. The decoder commands DEC_START, DEC_CHAR and DEC_END (41_decoder.md).
-/

namespace Sys2Proof.Machine

/-- DEC_CHAR in ACTIVE: the character's class decides (R118, R120). -/
def Arch.scanned (nul : Bool) (c : Byte) (S : Arch) : Arch × Response :=
  let e := c2i nul c
  match e.cls with
  | .alpha => S.alpha e.index
  | .ws => (S, respond .ok 0 0)
  | .pad => S.terminated .done
  | .term => S.terminated .done
  | .invalid => S.failed

/-- DEC_START: open a decode operation, abandoning one that is open (R117). -/
def execDecStart (s : State) : Host.Outcome State Fault Refusal :=
  .next (s.complete (s.arch.moved .active, respond .ok 0 0))

/-- DEC_CHAR: feed one character; outside ACTIVE it is not even classified (R118, R124). -/
def execDecChar (c : Byte) (s : State) : Host.Outcome State Fault Refusal :=
  match s.arch.dstate with
  | .idle => .next (s.complete (s.arch, respond .notActive 0 0))
  | .done => .next (s.complete (s.arch, respond .ignored 0 0))
  | .fail => .next (s.complete (s.arch, respond .ignored 0 0))
  | .active => .next (s.complete (s.arch.scanned s.params.nulTerminates c))

/-- DEC_END: the end of input; close the decode operation (R125). -/
def execDecEnd (s : State) : Host.Outcome State Fault Refusal :=
  match s.arch.dstate with
  | .idle => .next (s.complete (s.arch, respond .notActive 0 0))
  | .active => .next (s.complete (s.arch.terminated .idle))
  | .done => .next (s.complete ({ s.arch with dstate := .idle }, respond .ok 0 0))
  | .fail => .next (s.complete ({ s.arch with dstate := .idle }, respond .invalidChar 0 0))

end Sys2Proof.Machine
end

