-- ==== Sys2Proof/Machine/Encoder.lean ====
section
/-!
DEFINITION. The encoder command ENC_GROUP (40_encoder.md). It reads and writes no register of S (R90, R96).
-/

namespace Sys2Proof.Machine

/-- ENC_GROUP: the four characters of the masked group (R95). CNT = 0 is no ENC_GROUP but an ILLEGAL word (R75, R95); no word decodes
to such a term, and run on one the command answers what the spec gives that word. -/
def execEncGroup (cnt : BitVec 2) (b0 b1 b2 : Byte) (s : State) : Host.Outcome State Fault Refusal :=
  if cnt = 0 then .next s.completeIllegal
  else .next (s.complete (s.arch, respond .ok 4 (groupChars cnt (maskedGroup cnt b0 b1 b2))))

end Sys2Proof.Machine
end

