-- ==== Sys2Proof/Machine/Dispatch.lean ====
section
/-!
DEFINITION. One arm per command: each calls its meaning. There is no arm for an ILLEGAL word, which is no command: `step` answers it
(30_encoding.md R75).
-/

namespace Sys2Proof.Machine

def exec (i : Instr) (s : State) : Host.Outcome State Fault Refusal :=
  match i with
  | .nop => Sys2Proof.Machine.execNop s
  | .encGroup cnt b0 b1 b2 => Sys2Proof.Machine.execEncGroup cnt b0 b1 b2 s
  | .decStart => Sys2Proof.Machine.execDecStart s
  | .decChar c => Sys2Proof.Machine.execDecChar c s
  | .decEnd => Sys2Proof.Machine.execDecEnd s
  | .query => Sys2Proof.Machine.execQuery s

end Sys2Proof.Machine
end

