-- ==== Sys2Proof/Machine/Step.lean ====
section
/-!
DEFINITION. One step of the machine is one cycle of `clk`, ending at its rising edge (20_memory.md R51, R52, R55).
-/

namespace Sys2Proof.Machine

/-- One cycle. An accepted word is decoded and its command takes its whole effect at the edge (R55, R60); an ILLEGAL word is answered
by ILLEGAL_CMD (R75). -/
def step (s : State) : Host.Outcome State Fault Refusal :=
  match s.edge with
  | .reset s' => .next s'
  | .notReset => .fault .notReset
  | .broken => .refused .handshakeBroken
  | .idle s' => .next s'
  | .accept w s' =>
    match decode w with
    | .ok i => exec i s'
    | .error _ => .next s'.completeIllegal

/-- B64DP fetches no instructions (R63): a program is the host's stream of command words. So this puts the word on the command
channel of the next cycle, with room for its response; nothing else changes. -/
def State.withFetchWord (s : State) (nbits w : Nat) : State := s.withCommand (tableWord nbits w)

end Sys2Proof.Machine
end

