-- ==== Sys2Proof/Machine/HostLevel.lean ====
section
/-!
DEFINITION. The source's two functions as host-level compositions of commands (40_encoder.md R100; 41_decoder.md R131), the expansions they
rest on (30_encoding.md R81), the stream output of a run (20_memory.md R57), and what the accepted words alone do (R55).
-/

namespace Sys2Proof.Machine

/-! ## Streams of commands -/

/-- The state after the commands `p`, one after the other. A stop would end the stream; no command stops. -/
def issue (s : State) : List Instr → State
  | [] => s
  | i :: p =>
    match exec i s with
    | .next s' => issue s' p
    | .fault _ => s
    | .refused _ => s

/-- The responses to the commands `p`, in order: one per command (R55). -/
def responsesTo (s : State) (p : List Instr) : List Response :=
  ((issue s p).inFlight.drop s.inFlight.length).map InFlight.rsp

/-- The stream output of a run: the concatenation of its responses' stream outputs (R57). -/
def streamOutput (rs : List Response) : List Byte := rs.flatMap Response.stream

/-- The effect of one accepted word, legal or not (R11, R55, R75). -/
def State.afterWord (s : State) (w : Word) : State :=
  match decode w with
  | .error _ => s.completeIllegal
  | .ok i => issue s [i]

/-- The word that the next edge accepts, if it accepts one (R52). -/
def State.acceptedWord (s : State) : Option Word :=
  match s.edge with
  | .accept w _ => some w
  | _ => none

/-- Every response to a command accepted since the last reset: the ones taken, then the ones in flight (R55). -/
def State.responses (s : State) : List Response := s.taken ++ s.inFlight.map InFlight.rsp

/-! ## Runs of cycles -/

/-- `n` cycles, stopping at the first stop. -/
def runCycles : Nat → State → Host.Outcome State Fault Refusal
  | 0, s => .next s
  | n + 1, s =>
    match step s with
    | .next s' => runCycles n s'
    | .fault f => .fault f
    | .refused r => .refused r

/-- The words accepted in the next `n` cycles, in acceptance order (R55). -/
def acceptedWords : Nat → State → List Word
  | 0, _ => []
  | n + 1, s =>
    s.acceptedWord.toList ++
      match step s with
      | .next s' => acceptedWords n s'
      | .fault _ => []
      | .refused _ => []

/-- The run is over: the host has taken the response of every command accepted since the last reset, and it offers no further command
(70_reset_and_hazards.md R177). DESIGN CHOICE (notes/assumptions/20.md): "no further command" is read as none in any cycle before the next `rst`;
what the schedule lists after that belongs to the next run. -/
def State.runOver (s : State) : Bool :=
  s.wasReset && s.inFlight.isEmpty && s.cmdHeld.isNone && (s.inputs.takeWhile fun c => !c.rst).all fun c => !c.cmdValid

/-! ## The host's encode (R81 ENCODE, R100) -/

/-- `ENC3` for each full group, then `ENC1` or `ENC2` for a final group of 1 or 2 bytes. -/
def encodeCommands : List Byte → List Instr
  | [] => []
  | [x] => [.encGroup 1 x 0 0]
  | [x, y] => [.encGroup 2 x y 0]
  | x :: y :: z :: rest => .encGroup 3 x y z :: encodeCommands rest

/-- The source's `encode(bytes)`. -/
def hostEncode (s : State) (bytes : List Byte) : List Byte := streamOutput (responsesTo s (encodeCommands bytes))

/-! ## The host's decode (R81 DECODE, R131) -/

/-- `DEC_STR`: one DEC_CHAR per character. -/
def charCommands (text : List Byte) : List Instr := text.map Instr.decChar

/-- `DECODE`: DEC_START, the characters, DEC_END. -/
def decodeCommands (text : List Byte) : List Instr := .decStart :: charCommands text ++ [.decEnd]

/-- The source's `decode(text)`: `none` is InvalidCharacter. The verdict is the status of the DEC_END, the last response (R127). -/
def hostDecode (s : State) (text : List Byte) : Option (List Byte) :=
  let rs := responsesTo s (decodeCommands text)
  if (rs.getLast?.map Response.rst) = some .invalidChar then none else some (streamOutput rs)

/-! ## The source's own decode algorithm (R119 to R123 quote it; R132) -/

/-- `tuple = t0*262144 + t1*4096 + t2*64 + t3`, a missing trailing position being 0 (R112, R113). -/
def sourceTuple (t : List Index) : Nat :=
  (t.getD 0 0).toNat * 262144 + (t.getD 1 0).toNat * 4096 + (t.getD 2 0).toNat * 64 + (t.getD 3 0).toNat

/-- The bytes of a group of `t.length` indices: `tuple>>16`, `tuple>>8`, `tuple`, each masked to 8 bits, of which one fewer than there are
indices are emitted (R114, R115). -/
def sourceBytes (t : List Index) : List Byte :=
  ([sourceTuple t / 65536, sourceTuple t / 256, sourceTuple t].map (BitVec.ofNat 8)).take (t.length - 1)

/-- The source's scan, one character at a time, with the pending indices `t`. -/
def sourceScan (nul : Bool) (t : List Index) : List Byte → Option (List Byte)
  | [] => some (sourceBytes t)
  | c :: cs =>
    match (c2i nul c).cls with
    | .alpha =>
      let t' := t ++ [(c2i nul c).index]
      if t'.length = 4 then (sourceScan nul [] cs).map (sourceBytes t' ++ ·) else sourceScan nul t' cs
    | .ws => sourceScan nul t cs
    | .pad => some (sourceBytes t)
    | .term => some (sourceBytes t)
    | .invalid => none

/-- The source's `decode` of §4.2. -/
def sourceDecode (nul : Bool) (text : List Byte) : Option (List Byte) := sourceScan nul [] text

end Sys2Proof.Machine
end

