-- ==== Sys2Proof/Machine/Runs.lean ====
section
/-!
DEFINITION. Runs without end (70_reset_and_hazards.md R178): what a B64DP with a host does for good, cycle after cycle.

A schedule in State is finite, and after it the quiet cycle follows. A run here has a cycle for EVERY number, so the host can hold `rsp_ready`
at 1 and `rst` at 0 from some cycle on, and B64DP can stall or hold back again and again, but not for good.
-/

namespace Sys2Proof.Machine

/-- The state with `c` as the one cycle of its schedule: the next step is the edge that ends `c`. -/
def State.under (s : State) (c : Cycle) : State := { s with inputs := [c] }

/-- The oldest response in flight may be offered: `RSP_LATENCY` has passed for it (R54). -/
def State.mayOffer (s : State) : Bool :=
  match s.inFlight with
  | [] => false
  | e :: _ => e.wait == 0

/-- Nothing but the implementation's own choice keeps `cmd_ready` low in the cycle `c` (R53). -/
def State.mayAccept (s : State) (c : Cycle) : Bool := !c.rst && (s.served c).hasRoom

/-- Cycle `n` is `env n` and starts from `run n`, and every edge has a next state: the machine is reset before it is used (R35) and the host keeps the
handshake (R52). -/
structure IsRun (env : Nat → Cycle) (run : Nat → State) : Prop where
  steps : ∀ n, step ((run n).under (env n)) = .next (run (n + 1))

/-- Weak fairness of B64DP's own progress, which R178 asks of every B64DP: a response that may be offered in every cycle from one on is not held
back in all of them, and a command that may be accepted in every cycle from one on is not stalled in all of them. It bounds no number of cycles. -/
structure WeaklyFair (env : Nat → Cycle) (run : Nat → State) : Prop where
  offers : ∀ n, (∀ m, n ≤ m → (run m).mayOffer = true) → ∃ m, n ≤ m ∧ (env m).rspHold = false
  accepts : ∀ n, (∀ m, n ≤ m → (run m).mayAccept (env m) = true) → ∃ m, n ≤ m ∧ (env m).cmdStall = false

/-- A run of the hardware without end: the steps of the machine, in which B64DP makes its own progress (R178). -/
structure HardwareRun (env : Nat → Cycle) (run : Nat → State) : Prop extends IsRun env run, WeaklyFair env run

end Sys2Proof.Machine
end

