-- ==== Sys2Proof/Safety.lean ====
section
/-!
DEFINITION. What holds of every state of a B64DP that has been reset (10_state.md R22, R30, R32; 20_memory.md R53, R57; 30_encoding.md R76), and
what a safe run is: one that the host's breach of its duties does not stop (70_reset_and_hazards.md R174, R176).
-/

namespace Sys2Proof.Machine

/-- The registers: every position at or beyond N is zero (R22), and outside ACTIVE nothing is pending (R30). -/
structure Arch.Inv (S : Arch) : Prop where
  t0_zero : S.n = 0 → S.t0 = 0
  t1_zero : S.n.toNat ≤ 1 → S.t1 = 0
  t2_zero : S.n.toNat ≤ 2 → S.t2 = 0
  idle_empty : S.dstate ≠ .active → S.n = 0

/-- A response: RCNT is at most 4 (R76), a response with stream bytes has zero in every lane beyond them (R57), and a status other than OK
comes with no data (R151 to R154). -/
structure Response.Inv (r : Response) : Prop where
  count_le : r.rcnt.toNat ≤ 4
  lanes_zero : r.rcnt ≠ 0 → ∀ k : Fin 4, r.rcnt.toNat ≤ k.val → lane r.rdata k = 0
  error_empty : r.rst ≠ .ok → r.rcnt = 0 ∧ r.rdata = 0

/-- The response side of the channels: at most `RSP_DEPTH` responses in flight (R32, R53), each still to wait at most `RSP_LATENCY - 1`
cycles and no longer than the ones behind it, and a raised `rsp_valid` has a response that may be offered (R54). -/
structure State.ChannelInv (s : State) : Prop where
  depth_le : s.inFlight.length ≤ s.params.rspDepth
  wait_le : ∀ e ∈ s.inFlight, e.wait ≤ s.params.rspLatency - 1
  in_order : s.inFlight.Pairwise fun a b => a.wait ≤ b.wait
  raised_ready : s.rspRaised = true → ∃ e rest, s.inFlight = e :: rest ∧ e.wait = 0
  responses_ok : ∀ e ∈ s.inFlight, e.rsp.Inv
  taken_ok : ∀ r ∈ s.taken, r.Inv

/-- The whole invariant. The registers and channels are constrained only after a reset: before it their values are unspecified (R35). -/
structure State.Inv (s : State) : Prop where
  params_ok : s.params.WellFormed
  arch_ok : s.wasReset = true → s.arch.Inv
  channel_ok : s.wasReset = true → s.ChannelInv

/-- The next step is one the spec gives a meaning: it neither comes before the first reset nor breaks the command handshake. -/
def State.SafeStep (s : State) : Prop := ∃ s', step s = .next s'

end Sys2Proof.Machine
end

