-- ==== Sys2Proof/Certificates/Slice0/Obligations.lean ====
section
/-!
DEFINITION. The statements for the provers. A result is written with the source's own arithmetic on natural numbers, with the tables that
the spec prints, or as the whole next state, not with the functions the meanings call.
-/

open Sys2Proof Sys2Proof.Machine

namespace Sys2Proof.Stated

/-- The next state of a command, written out: S is `S'`, and one response (st, cnt, data) joins the responses in flight, to be offered
`RSP_LATENCY` cycles after the acceptance. EVERYTHING ELSE IS AS BEFORE: this is the frame of every command. -/
def Answers (i : Instr) (s : State) (S' : Arch) (st : Status) (cnt : Nat) (data : Word) : Prop :=
  exec i s = .next { s with
    arch := S'
    inFlight := s.inFlight ++
      [{ rsp := { rst := st, rcnt := BitVec.ofNat 3 cnt, rdata := data }, wait := s.params.rspLatency - 1 }] }

/-- The status and count of a command's response, and the DSTATE after it. -/
def Moves (i : Instr) (s : State) (d : DState) (st : Status) (cnt : Nat) : Prop :=
  ∃ t e, exec i s = .next t ∧ t.arch.dstate = d ∧ t.inFlight = s.inFlight ++ [e] ∧ e.rsp.rst = st ∧ e.rsp.rcnt.toNat = cnt

/-- The response to an accepted word: the one that its effect adds to the responses in flight. -/
def Responds (s : State) (w : Word) (r : Response) : Prop :=
  (s.afterWord w).inFlight = s.inFlight ++ [⟨r, s.params.rspLatency - 1⟩]

/-- Four lanes as RDATA, lane 0 in the most significant byte (R56). -/
def bytesWord (l0 l1 l2 l3 : Nat) : Word := BitVec.ofNat 32 (l0 * 2 ^ 24 + l1 * 2 ^ 16 + l2 * 2 ^ 8 + l3)

/-- The alphabet as the source lists it, by ASCII code: A-Z, a-z, 0-9, +, / (R23, R24). -/
def alphabet : List Nat :=
  (List.range 26).map (0x41 + ·) ++ (List.range 26).map (0x61 + ·) ++ (List.range 10).map (0x30 + ·) ++ [0x2B, 0x2F]

/-- Character k of an encoded group: the index is got by repeated division by 64 (R93, R94). -/
def encodedChar (cnt tuple k : Nat) : Nat := if k ≤ cnt then alphabet.getD (tuple / 64 ^ (3 - k) % 64) 0 else 0x3D

/-- RDATA of a decode response with the first `nb` bytes of a 24-bit group (R114, R116). -/
def decodedWord (tuple nb : Nat) : Word :=
  bytesWord (if 1 ≤ nb then tuple / 65536 else 0) (if 2 ≤ nb then tuple / 256 % 256 else 0) (if 3 ≤ nb then tuple % 256 else 0) 0

/-- `t0*262144 + t1*4096 + t2*64`, each position at or beyond N taken as 0 (R112, R113). -/
def pendingTuple (S : Arch) : Nat :=
  (if 0 < S.n.toNat then S.t0.toNat else 0) * 262144 + (if 1 < S.n.toNat then S.t1.toNat else 0) * 4096 +
    (if 2 < S.n.toNat then S.t2.toNat else 0) * 64

/-- S with nothing pending. -/
def emptyArch (d : DState) : Arch := { dstate := d, n := 0, t0 := 0, t1 := 0, t2 := 0 }

/-- The map of R27, one line per high hex digit: an index, or 64 for WS, 65 for PAD, 66 for T/I, 67 for INVALID. -/
def c2iMap : List (List Nat) :=
  [[66, 67, 67, 67, 67, 67, 67, 67, 64, 64, 64, 67, 64, 64, 67, 67],
   [67, 67, 67, 67, 67, 67, 67, 67, 67, 67, 67, 67, 67, 67, 67, 67],
   [64, 67, 67, 67, 67, 67, 67, 67, 67, 67, 67, 62, 67, 67, 67, 63],
   [52, 53, 54, 55, 56, 57, 58, 59, 60, 61, 67, 67, 67, 65, 67, 67],
   [67, 0, 1, 2, 3, 4, 5, 6, 7, 8, 9, 10, 11, 12, 13, 14],
   [15, 16, 17, 18, 19, 20, 21, 22, 23, 24, 25, 67, 67, 67, 67, 67],
   [67, 26, 27, 28, 29, 30, 31, 32, 33, 34, 35, 36, 37, 38, 39, 40],
   [41, 42, 43, 44, 45, 46, 47, 48, 49, 50, 51, 67, 67, 67, 67, 67]]

/-- The 9-bit entry that a number of `c2iMap` stands for: CLASS * 64 + INDEX (R26). A code with no line in it is INVALID. -/
def c2iMapBits (nul : Bool) (m : Nat) : Nat :=
  if m < 64 then 64 + m else if m = 64 then 128 else if m = 65 then 192 else if m = 66 ∧ nul = true then 256 else 0

/-- No `rst` in the next `n` cycles of the schedule. (After its end the quiet cycle follows, which has none.) -/
def NoReset (n : Nat) (s : State) : Prop := ∀ c ∈ s.inputs.take n, c.rst = false

/-- A cycle in which the host takes what is offered and B64DP does not hold back: the premise of the bounded clauses. R178's weak fairness, over a
run without end, is `WeaklyFair`. -/
def FairCycle (c : Cycle) : Prop := c.rst = false ∧ c.rspReady = true ∧ c.rspHold = false ∧ c.cmdStall = false

/-- A word that does not bear on an open decode operation (R130): WS, NOP, QUERY, ENC_GROUP or ILLEGAL. -/
def interleavable (nul : Bool) (w : Word) : Bool :=
  match decode w with
  | .error _ => true
  | .ok .nop => true
  | .ok .query => true
  | .ok (.encGroup _ _ _ _) => true
  | .ok (.decChar c) => (c2i nul c).cls == .ws
  | .ok .decStart => false
  | .ok .decEnd => false

/-- The state after the words `ws`, accepted one after the other. -/
def afterWords (s : State) (ws : List Word) : State := ws.foldl State.afterWord s

/-- The responses to the words `ws`, in order. -/
def wordResponses (s : State) (ws : List Word) : List Response :=
  ((afterWords s ws).inFlight.drop s.inFlight.length).map InFlight.rsp

/-- The characters up to the first PAD or TERM. -/
def beforeTerminator (nul : Bool) (text : List Byte) : List Byte :=
  text.takeWhile fun c => !((c2i nul c).cls == .pad || (c2i nul c).cls == .term)

/-- How many of the characters are of class ALPHA. -/
def alphaCount (nul : Bool) (text : List Byte) : Nat := text.countP fun c => (c2i nul c).cls == .alpha

end Sys2Proof.Stated

open Sys2Proof.Stated

/-! ## Reset and the channels -/

/-- R34: the values after reset, in `State.reset` and after any edge with `rst` = 1; the parameters and the ROMs stay as they were. -/
def Obligations.ResetStateHasTheValuesOfTheSpec : Prop :=
  State.reset.arch.dstate = .idle ∧ State.reset.arch.n = 0 ∧ State.reset.arch.t0 = 0 ∧ State.reset.arch.t1 = 0 ∧
    State.reset.arch.t2 = 0 ∧ State.reset.inFlight = [] ∧
    ∀ (s : State) (c : Cycle) (rest : List Cycle), s.inputs = c :: rest → c.rst = true →
      ∃ t, step s = .next t ∧ t.arch = State.reset.arch ∧ t.inFlight = [] ∧ t.params = s.params ∧
        ∀ b, c2i t.params.nulTerminates b = c2i s.params.nulTerminates b

/-- R170: one edge with `rst` = 1, or any number of them, leaves the reset values of S and no response in flight, whatever was before, and
touches neither the parameters nor the ROMs; `cmd_ready` is 0 in each such cycle; and `rsp_valid` is 0 until a command accepted after reset has
its response. -/
def Obligations.ResetEdgesLeaveResetStateAndNoResponse : Prop :=
  (∀ (s : State) (cs rest : List Cycle), cs ≠ [] → (∀ c ∈ cs, c.rst = true) → s.inputs = cs ++ rest →
    ∃ t, runCycles cs.length s = .next t ∧ t.arch = emptyArch .idle ∧ t.inFlight = [] ∧ t.params = s.params ∧ t.inputs = rest ∧
      ∀ b, c2i t.params.nulTerminates b = c2i s.params.nulTerminates b) ∧
  (∀ (s : State) (c : Cycle), c.rst = true → s.cmdReady c = false) ∧
  (∀ (s : State) (c : Cycle), s.inFlight = [] → s.rspValid c = false) ∧
  (∀ s t : State, s.inFlight = [] → step s = .next t → s.acceptedWord = none → t.inFlight = [])

/-- R35: before the first reset there is no step, whatever the registers and pins hold. -/
def Obligations.BeforeFirstResetTheMachineIsStuck : Prop :=
  ∀ s : State, s.wasReset = false → s.nextCycle.rst = false → step s = .fault .notReset ∧ s.acceptedWord = none

/-- R52: a word is accepted exactly when `rst` = 0, `cmd_valid` = 1 and `cmd_ready` = 1; `cmd_ready` does not look at `cmd_valid`; a word that is
not accepted has no effect on the registers or on any response; and a host that drops or changes an offered word gets no step. -/
def Obligations.CommandIsAcceptedExactlyByTheHandshake : Prop :=
  (∀ (s : State) (w : Word), s.wasReset = true → s.breaksHandshake s.nextCycle = false →
    (s.acceptedWord = some w ↔ s.nextCycle.rst = false ∧ s.nextCycle.cmdValid = true ∧ s.cmdReady s.nextCycle = true ∧
      s.nextCycle.cmdData = w)) ∧
  (∀ (s : State) (c : Cycle) (v : Bool), s.cmdReady { c with cmdValid := v } = s.cmdReady c) ∧
  (∀ s : State, s.wasReset = true → s.breaksHandshake s.nextCycle = false → s.nextCycle.rst = false → s.acceptedWord = none →
    ∃ t, step s = .next t ∧ t.arch = s.arch ∧ t.responses = s.responses) ∧
  (∀ (s : State) (w : Word), s.wasReset = true → s.cmdHeld = some w → s.nextCycle.rst = false →
    (s.nextCycle.cmdValid = false ∨ s.nextCycle.cmdData ≠ w) → step s = .refused .handshakeBroken)

/-- R53: at most `RSP_DEPTH` responses are in flight; `cmd_ready` is 0 while `rst` = 1 and when one more response would exceed `RSP_DEPTH` after the one taken in the same cycle; no response
is dropped, reordered or merged; and a host that never takes a response stops the command channel for good. -/
def Obligations.FullResponseBufferStopsTheCommandChannel : Prop :=
  (∀ s t : State, step s = .next t → s.inFlight.length ≤ s.params.rspDepth → t.inFlight.length ≤ t.params.rspDepth) ∧
  (∀ (s : State) (c : Cycle), c.rst = true → s.cmdReady c = false) ∧
  (∀ (s : State) (c : Cycle),
    s.params.rspDepth < s.inFlight.length - (if s.rspValid c = true ∧ c.rspReady = true then 1 else 0) + 1 → s.cmdReady c = false) ∧
  (∀ s t : State, step s = .next t → s.nextCycle.rst = false →
    t.responses = s.responses ∨ ∃ r, t.responses = s.responses ++ [r]) ∧
  (∀ (n : Nat) (s t : State), s.params.rspDepth ≤ s.inFlight.length → (∀ c ∈ s.inputs, c.rst = false ∧ c.rspReady = false) →
    runCycles n s = .next t → acceptedWords n s = [] ∧ t.acceptedWord = none ∧ t.arch = s.arch)

/-- R54: what the host takes is what was offered; an offered response stays, unchanged, until it is taken or `rst` is raised; and the response to a
command is offered no earlier than `RSP_LATENCY` cycles after its acceptance. The last clause counts the first cycle after the accepting edge
as cycle 1, which is the model's reading (notes/assumptions/7.md). -/
def Obligations.OfferedResponseStaysUntilTaken : Prop :=
  (∀ (s t : State) (r : Response), step s = .next t → s.nextCycle.rst = false → s.offered s.nextCycle = some r →
    s.nextCycle.rspReady = true → t.taken = s.taken ++ [r]) ∧
  (∀ s t : State, step s = .next t → s.nextCycle.rst = false →
    (s.nextCycle.rspReady = false ∨ s.offered s.nextCycle = none) → t.taken = s.taken) ∧
  (∀ (s t : State) (r : Response), step s = .next t → s.nextCycle.rst = false → s.offered s.nextCycle = some r →
    s.nextCycle.rspReady = false → ∀ c, t.offered c = some r) ∧
  (∀ (s u : State) (w : Word) (m : Nat) (c : Cycle), s.acceptedWord = some w → 1 ≤ m → m < s.params.rspLatency → NoReset m s →
    runCycles m s = .next u →
      u.taken.length ≤ s.responses.length ∧ (u.taken.length = s.responses.length → u.offered c = none))

/-- R55: over any run without `rst`, from any state, the registers and the responses (taken, then in flight) are those of the accepted words' own
effects, one after the other, one response each, whatever `RSP_LATENCY`, `RSP_DEPTH` and the schedule are. -/
def Obligations.ChannelsCarryTheCommandFunction : Prop :=
  ∀ (n : Nat) (s t : State), runCycles n s = .next t → NoReset n s →
    t.arch = (afterWords s (acceptedWords n s)).arch ∧ t.responses = (afterWords s (acceptedWords n s)).responses ∧
    t.responses.length = s.responses.length + (acceptedWords n s).length

/-- A step runs the decoded command: at an accepting edge the step is `exec` of the decoded command, on the state in which the response side has
moved (`served`), the cycle is used up and no word is held. -/
def Obligations.StepRunsTheDecodedCommand : Prop :=
  ∀ (s : State) (i : Instr), s.wasReset = true → s.breaksHandshake s.nextCycle = false → s.nextCycle.rst = false →
    s.nextCycle.cmdValid = true → s.cmdReady s.nextCycle = true → decode s.nextCycle.cmdData = .ok i →
      step s = exec i { ({ s with inputs := s.inputs.tail } : State).served s.nextCycle with cmdHeld := none }

/-- R175 and R52 at the plainest: with nothing in flight, an offered legal word is run by the next step, and the rest of the state is as before. -/
def Obligations.OfferedWordRunsInAnEmptyChannel : Prop :=
  ∀ (s : State) (c : Cycle) (rest : List Cycle) (i : Instr), s.wasReset = true → s.inFlight = [] → s.cmdHeld = none →
    s.inputs = c :: rest → c.rst = false → c.cmdValid = true → c.cmdStall = false → 1 ≤ s.params.rspDepth → decode c.cmdData = .ok i →
      step s = exec i { s with inputs := rest, rspRaised := false }

/-- R178. The first two clauses are bounded: for as many cycles as the schedule holds, when the host takes every response and B64DP does not hold
back (the two choices of notes/assumptions/2.md), every response in flight is taken within `RSP_LATENCY - 1` cycles and one more for each
(counted as notes/assumptions/7.md says), in order, and within `RSP_LATENCY` cycles `cmd_ready` is 1. The last clause is R178 itself, with no bound:
in every run without end in which B64DP makes progress by weak fairness alone (notes/assumptions/21.md) and the host holds `rsp_ready` = 1 and
`rst` = 0 from cycle `N` on, every response not yet taken, at position `i` of the responses, is offered and taken, and `cmd_ready` is 1 in infinitely
many cycles. -/
def Obligations.FairCyclesDeliverEveryResponse : Prop :=
  (∀ (n : Nat) (s t : State), s.Inv → s.wasReset = true → (∀ c ∈ s.inputs.take n, FairCycle c) → n ≤ s.inputs.length →
    s.params.rspLatency - 1 + s.inFlight.length ≤ n → runCycles n s = .next t → s.responses <+: t.taken) ∧
  (∀ s t : State, s.Inv → s.wasReset = true → (∀ c ∈ s.inputs.take s.params.rspLatency, FairCycle c) →
    s.params.rspLatency ≤ s.inputs.length → runCycles s.params.rspLatency s = .next t →
      ∃ m u, m < s.params.rspLatency ∧ runCycles m s = .next u ∧ u.cmdReady u.nextCycle = true) ∧
  ∀ (env : Nat → Cycle) (run : Nat → State) (N : Nat), HardwareRun env run → (run 0).params.WellFormed →
    (∀ n, N ≤ n → (env n).rst = false ∧ (env n).rspReady = true) →
      (∀ (n i : Nat) (r : Response), N ≤ n → (run n).responses[i]? = some r → (run n).taken.length ≤ i →
        ∃ m, n ≤ m ∧ (run m).taken.length = i ∧ (run m).offered (env m) = some r ∧ (run (m + 1)).taken = (run m).taken ++ [r]) ∧
      ∀ n, ∃ m, n ≤ m ∧ (run m).cmdReady (env m) = true

/-- R166: while no command is offered and `rst` is 0, the registers stay as they are, for any number of cycles. -/
def Obligations.RegistersHoldWhileNoCommandIsOffered : Prop :=
  ∀ (n : Nat) (s : State), s.wasReset = true → s.cmdHeld = none → (∀ c ∈ s.inputs, c.rst = false ∧ c.cmdValid = false) →
    ∃ t, runCycles n s = .next t ∧ t.arch = s.arch ∧ t.responses = s.responses

/-- R177, with `State.runOver` as the model reads it (notes/assumptions/20.md): once a run is over its outcome is fixed: every response has been
taken, and until the next reset, wherever the schedule puts it, neither the responses taken nor the registers change again. -/
def Obligations.EndedRunKeepsItsResponsesAndRegisters : Prop :=
  ∀ (n : Nat) (s : State), s.runOver = true → NoReset n s →
    s.responses = s.taken ∧ ∃ t, runCycles n s = .next t ∧ t.runOver = true ∧ t.arch = s.arch ∧ t.taken = s.taken

/-- R179: no command and no reset changes how a character is classified. -/
def Obligations.ClassificationNeverChanges : Prop :=
  ∀ (n : Nat) (s t : State), runCycles n s = .next t →
    t.params = s.params ∧ ∀ c, c2i t.params.nulTerminates c = c2i s.params.nulTerminates c

/-! ## Encoding -/

/-- Decoding the word of any command gives the command back, with every operand at every value. -/
def Obligations.DecodeOfEncodeIsTheCommand : Prop := ∀ i : Instr, i.WellFormed → decode (encode i) = .ok i

/-- A word that decodes to a command is that command's one word, and the command is well formed. -/
def Obligations.EncodeOfDecodeIsTheWord : Prop := ∀ (w : Word) (i : Instr), decode w = .ok i → i.WellFormed ∧ encode i = w

/-- R72: the opcode map, by its match and mask columns. -/
def Obligations.OpcodeMapIsTheTable : Prop :=
  ∀ w : Word,
    (decode w = .ok .nop ↔ w &&& 0xFFFFFFFF = 0x00000000) ∧
    ((∃ cnt b0 b1 b2, decode w = .ok (.encGroup cnt b0 b1 b2)) ↔ w &&& 0xF3000000 = 0x10000000 ∧ w.extractLsb' 26 2 ≠ 0) ∧
    (decode w = .ok .decStart ↔ w &&& 0xFFFFFFFF = 0x20000000) ∧
    ((∃ c, decode w = .ok (.decChar c)) ↔ w &&& 0xFFFFFF00 = 0x30000000) ∧
    (decode w = .ok .decEnd ↔ w &&& 0xFFFFFFFF = 0x40000000) ∧
    (decode w = .ok .query ↔ w &&& 0xFFFFFFFF = 0x50000000) ∧
    (6 ≤ w.toNat / 2 ^ 28 → ∃ e, decode w = .error e)

/-- Words written out from the tables of 30_encoding.md and 95_test_vectors.md decode to their commands. -/
def Obligations.SampleWordsDecodeToTheirCommands : Prop :=
  decode 0x00000000 = .ok .nop ∧ decode 0x1C4D616E = .ok (.encGroup 3 0x4D 0x61 0x6E) ∧
    decode 0x184D61FF = .ok (.encGroup 2 0x4D 0x61 0xFF) ∧ decode 0x20000000 = .ok .decStart ∧
    decode 0x30000075 = .ok (.decChar 0x75) ∧ decode 0x40000000 = .ok .decEnd ∧ decode 0x50000000 = .ok .query

/-- R75: exactly six kinds of words are ILLEGAL; such a word is accepted like any other, leaves S unchanged and is answered by
(ILLEGAL_CMD, 0, 0). -/
def Obligations.IllegalWordIsAnsweredAndChangesNothing : Prop :=
  (∀ w : Word, (∃ e, decode w = .error e) ↔
    (w.extractLsb' 24 2 ≠ 0 ∨ 6 ≤ w.toNat / 2 ^ 28 ∨ (w.extractLsb' 26 2 ≠ 0 ∧ w.toNat / 2 ^ 28 ≠ 1) ∨
      (w.toNat / 2 ^ 28 = 1 ∧ w.extractLsb' 26 2 = 0) ∨
      ((w.toNat / 2 ^ 28 = 0 ∨ w.toNat / 2 ^ 28 = 2 ∨ w.toNat / 2 ^ 28 = 4 ∨ w.toNat / 2 ^ 28 = 5) ∧ w.extractLsb' 0 24 ≠ 0) ∨
      (w.toNat / 2 ^ 28 = 3 ∧ w.extractLsb' 8 16 ≠ 0))) ∧
  (∀ (s : State) (w : Word) (e : IllegalReason), decode w = .error e →
    s.afterWord w = { s with inFlight := s.inFlight ++ [⟨⟨.illegalCmd, 0, 0⟩, s.params.rspLatency - 1⟩] } ∧
    (s.acceptedWord = some w → ∃ t, step s = .next t ∧ t.arch = s.arch ∧ t.responses = s.responses ++ [⟨.illegalCmd, 0, 0⟩]))

/-- R79: every word decodes to exactly one of the six commands or to ILLEGAL, with the counts R79 lists, and no accepted word stops the machine. -/
def Obligations.EveryWordHasOneDefinedOutcome : Prop :=
  {w : Word | decode w = .ok .nop}.ncard = 1 ∧
  {w : Word | ∃ cnt b0 b1 b2, decode w = .ok (.encGroup cnt b0 b1 b2)}.ncard = 3 * 2 ^ 24 ∧
  {w : Word | decode w = .ok .decStart}.ncard = 1 ∧ {w : Word | ∃ c, decode w = .ok (.decChar c)}.ncard = 256 ∧
  {w : Word | decode w = .ok .decEnd}.ncard = 1 ∧ {w : Word | decode w = .ok .query}.ncard = 1 ∧
  {w : Word | ∃ e, decode w = .error e}.ncard = 2 ^ 32 - (3 * 2 ^ 24 + 256 + 4) ∧
  ∀ (s : State) (w : Word), s.acceptedWord = some w → ∃ t, step s = .next t

/-! ## The frame, and the responses of all commands -/

/-- Every command runs, in every state, and changes nothing but S and the responses in flight, to which it adds one. NOP, QUERY and ENC_GROUP do
not change S either. -/
def Obligations.CommandChangesOnlyRegistersAndOneResponse : Prop :=
  ∀ (i : Instr) (s : State), ∃ t r, exec i s = .next t ∧
    t.inFlight = s.inFlight ++ [⟨r, s.params.rspLatency - 1⟩] ∧ t.rspRaised = s.rspRaised ∧ t.cmdHeld = s.cmdHeld ∧
    t.wasReset = s.wasReset ∧ t.params = s.params ∧ t.inputs = s.inputs ∧ t.taken = s.taken ∧
    (i = .nop ∨ i = .query ∨ (∃ cnt b0 b1 b2, i = .encGroup cnt b0 b1 b2) → t.arch = s.arch)

/-- R77: the range of RCNT and RST by command. Beside it, what the host reads: the 3-bit code of each status (R150), of which 5 to 7 are no status's,
and that the response port carries RDATA, RCNT and that code of the response offered (R50, R76). -/
def Obligations.ResponseRangesByCommand : Prop :=
  (Status.ok.code = 0 ∧ Status.ignored.code = 1 ∧ Status.invalidChar.code = 2 ∧ Status.illegalCmd.code = 3 ∧ Status.notActive.code = 4) ∧
  (∀ st : Status, st.code.toNat ≤ 4) ∧
  (∀ (s : State) (c : Cycle) (r : Response), s.offered c = some r →
    s.rspValid c = true ∧ ∃ code, s.rspPins c = some (r.rdata, r.rcnt, code) ∧
      code.toNat = match r.rst with | .ok => 0 | .ignored => 1 | .invalidChar => 2 | .illegalCmd => 3 | .notActive => 4) ∧
  ∀ (s : State) (w : Word), ∃ r, Responds s w r ∧
    match decode w with
    | .error _ => r.rcnt.toNat = 0 ∧ r.rst = .illegalCmd
    | .ok .nop => r.rcnt.toNat = 0 ∧ r.rst = .ok
    | .ok (.encGroup _ _ _ _) => r.rcnt.toNat = 4 ∧ r.rst = .ok
    | .ok .decStart => r.rcnt.toNat = 0 ∧ r.rst = .ok
    | .ok (.decChar c) =>
      (r.rst = .ok ∨ r.rst = .ignored ∨ r.rst = .invalidChar ∨ r.rst = .notActive) ∧
      (if (c2i s.params.nulTerminates c).cls = .pad ∨ (c2i s.params.nulTerminates c).cls = .term then r.rcnt.toNat ≤ 2
       else r.rcnt.toNat = 0 ∨ r.rcnt.toNat = 3)
    | .ok .decEnd => r.rcnt.toNat ≤ 2 ∧ (r.rst = .ok ∨ r.rst = .invalidChar ∨ r.rst = .notActive)
    | .ok .query =>
      r.rcnt.toNat = 0 ∧ r.rst = .ok ∧ r.rdata = statusView s.params.nulTerminates s.arch

/-- R57: a response's stream output is its first RCNT lanes, RCNT is at most 4, and every lane beyond is 0x00, but for the STATUS word of QUERY,
which carries no stream bytes. -/
def Obligations.LanesBeyondTheCountAreZero : Prop :=
  ∀ (s : State) (w : Word), ∃ r, Responds s w r ∧ r.rcnt.toNat ≤ 4 ∧ r.stream.length = r.rcnt.toNat ∧
    (∀ k : Fin 4, k.val < r.rcnt.toNat → r.stream[k.val]? = some (BitVec.ofNat 8 (r.rdata.toNat / 2 ^ (24 - 8 * k.val)))) ∧
    (decode w = .ok .query → r.rcnt = 0) ∧
    (decode w ≠ .ok .query → ∀ k : Fin 4, r.rcnt.toNat ≤ k.val → r.rdata.toNat / 2 ^ (24 - 8 * k.val) % 256 = 0)

/-- R156: the order of the checks. -/
def Obligations.StatusFollowsThePriorityOfChecks : Prop :=
  ∀ (s : State) (w : Word), ∃ r, Responds s w r ∧
    match decode w with
    | .error _ => r.rst = .illegalCmd
    | .ok (.decChar c) =>
      if s.arch.dstate = .idle then r.rst = .notActive
      else if s.arch.dstate = .done ∨ s.arch.dstate = .fail then r.rst = .ignored
      else if (c2i s.params.nulTerminates c).cls = .invalid then r.rst = .invalidChar
      else r.rst = .ok
    | .ok .decEnd =>
      if s.arch.dstate = .idle then r.rst = .notActive
      else if s.arch.dstate = .fail then r.rst = .invalidChar
      else r.rst = .ok
    | .ok _ => r.rst = .ok

/-- R155 and R158: a word answered by ILLEGAL_CMD, NOT_ACTIVE or IGNORED leaves S as it was; one answered by INVALID_CHAR has exactly the effect of
R123 or R125; and FAIL is left only by DEC_END, which reports INVALID_CHAR, by DEC_START, or by reset. -/
def Obligations.StatusesArePreciseAndFailIsTheOnlyRecord : Prop :=
  (∀ (s : State) (w : Word) (r : Response), Responds s w r →
    (r.rst = .illegalCmd ∨ r.rst = .notActive ∨ r.rst = .ignored → (s.afterWord w).arch = s.arch) ∧
    (r.rst = .invalidChar → (s.afterWord w).arch = emptyArch .fail ∨
      (decode w = .ok .decEnd ∧ (s.afterWord w).arch = { s.arch with dstate := .idle }))) ∧
  (∀ s t : State, s.arch.dstate = .fail → step s = .next t → t.arch.dstate ≠ .fail →
    s.nextCycle.rst = true ∨ ∃ w, s.acceptedWord = some w ∧
      (decode w = .ok .decStart ∨ (decode w = .ok .decEnd ∧ t.responses = s.responses ++ [⟨.invalidChar, 0, 0⟩])))

/-! ## The control commands -/

/-- R140: NOP answers (OK, 0, 0) and leaves S as it was, in every DSTATE; its word is the only legal one with OP = 0x0. -/
def Obligations.NopDoesNothing : Prop :=
  (∀ s : State, Answers .nop s s.arch .ok 0 0) ∧ decode 0x00000000 = .ok .nop ∧
    ∀ w : Word, w.toNat < 2 ^ 28 → w ≠ 0 → ∃ e, decode w = .error e

/-- R31: the fields of STATUS, with every reserved bit 0, as QUERY returns it. -/
def Obligations.QueryReturnsTheStatusWord : Prop :=
  ∀ s : State, ∃ data, Answers .query s s.arch .ok 0 data ∧
    data.toNat = s.arch.t0.toNat * 2 ^ 26 + s.arch.t1.toNat * 2 ^ 20 + s.arch.t2.toNat * 2 ^ 14 +
      (if s.params.nulTerminates = true then 256 else 0) + s.arch.n.toNat * 4 +
      (match s.arch.dstate with | .idle => 0 | .active => 1 | .done => 2 | .fail => 3)

/-- R141: QUERY answers (OK, 0, STATUS) in every DSTATE and leaves S as it was, so a second QUERY returns the same word; after reset the word is
0x00000000, or 0x00000100 when `NUL_TERMINATES`. -/
def Obligations.QueryHasNoSideEffect : Prop :=
  (∀ s : State, Answers .query s s.arch .ok 0 (statusView s.params.nulTerminates s.arch) ∧
    ∃ r, responsesTo s [.query, .query] = [r, r]) ∧
  (∀ p : Params, responsesTo (State.resetWith p) [.query] = [⟨.ok, 0, if p.nulTerminates = true then 0x00000100 else 0x00000000⟩]) ∧
  decode 0x50000000 = .ok .query

/-! ## The encoder -/

/-- R92 and R95: ENC_GROUP gives the source's characters, in every state, and leaves S as it was; the bytes beyond CNT have no effect; its word
is the one R95 gives; and a word with OP = 0x1 and CNT = 0 or RSV not 0 is no ENC_GROUP. -/
def Obligations.EncGroupGivesTheSourcesCharacters : Prop :=
  (∀ (s : State) (cnt : BitVec 2) (b0 b1 b2 : Byte), cnt ≠ 0 →
    (let tuple := b0.toNat * 65536 + (if 2 ≤ cnt.toNat then b1.toNat else 0) * 256 + (if cnt.toNat = 3 then b2.toNat else 0)
     Answers (.encGroup cnt b0 b1 b2) s s.arch .ok 4
      (bytesWord (encodedChar cnt.toNat tuple 0) (encodedChar cnt.toNat tuple 1) (encodedChar cnt.toNat tuple 2)
        (encodedChar cnt.toNat tuple 3))) ∧
    decode (BitVec.ofNat 32 (0x10000000 + cnt.toNat * 2 ^ 26 + b0.toNat * 2 ^ 16 + b1.toNat * 2 ^ 8 + b2.toNat)) =
      .ok (.encGroup cnt b0 b1 b2)) ∧
  (∀ (s : State) (b0 b1 b2 : Byte),
    exec (.encGroup 1 b0 b1 b2) s = exec (.encGroup 1 b0 0 0) s ∧ exec (.encGroup 2 b0 b1 b2) s = exec (.encGroup 2 b0 b1 0) s) ∧
  ∀ w : Word, w.toNat / 2 ^ 28 = 1 → w.extractLsb' 26 2 = 0 ∨ w.extractLsb' 24 2 ≠ 0 → ∃ e, decode w = .error e

/-- A term that no word encodes, ENC_GROUP with CNT = 0, answers what R75 gives the word it would be: the model's choice
(notes/assumptions/11.md). -/
def Obligations.EncGroupOfNoBytesIsIllegal : Prop :=
  ∀ (s : State) (b0 b1 b2 : Byte), Answers (.encGroup 0 b0 b1 b2) s s.arch .illegalCmd 0 0 ∧
    ∃ e, decode (encode (.encGroup 0 b0 b1 b2)) = .error e

/-- R98: every lane of an ENC_GROUP response is an alphabet character or '=', '=' stands exactly in lanes CNT+1 to 3, and bit 7 is 0. -/
def Obligations.EncGroupPadsExactlyTheUnusedLanes : Prop :=
  ∀ (s : State) (cnt : BitVec 2) (b0 b1 b2 : Byte), cnt ≠ 0 → ∃ data, Answers (.encGroup cnt b0 b1 b2) s s.arch .ok 4 data ∧
    ∀ k : Fin 4,
      ((lane data k).toNat ∈ alphabet ∨ lane data k = 0x3D) ∧ (lane data k = 0x3D ↔ cnt.toNat < k.val) ∧
      (k.val < 2 → lane data k ≠ 0x3D) ∧ (lane data k).toNat < 128

/-- R99: for one CNT, two groups give the same characters exactly when their first CNT bytes are equal. -/
def Obligations.EncGroupIsInjectiveOnTheRealBytes : Prop :=
  ∀ (s : State) (cnt : BitVec 2) (b0 b1 b2 c0 c1 c2 : Byte), cnt ≠ 0 →
    (responsesTo s [.encGroup cnt b0 b1 b2] = responsesTo s [.encGroup cnt c0 c1 c2] ↔
      b0 = c0 ∧ (2 ≤ cnt.toNat → b1 = c1) ∧ (cnt.toNat = 3 → b2 = c2))

/-- R96: ENC_GROUP neither reads nor writes S, and a command after it does what it would have done without it. -/
def Obligations.EncGroupAndDecoderDoNotInteract : Prop :=
  ∀ (s : State) (cnt : BitVec 2) (b0 b1 b2 : Byte) (S : Arch) (p : List Instr),
    (issue s [.encGroup cnt b0 b1 b2]).arch = s.arch ∧
    responsesTo { s with arch := S } [.encGroup cnt b0 b1 b2] = responsesTo s [.encGroup cnt b0 b1 b2] ∧
    (issue s (.encGroup cnt b0 b1 b2 :: p)).arch = (issue s p).arch ∧
    responsesTo s (.encGroup cnt b0 b1 b2 :: p) = responsesTo s [.encGroup cnt b0 b1 b2] ++ responsesTo s p

/-! ## The data path -/

/-- R93: extraction is a division by 64^(3-k), insertion a multiplication; the four slots make up the group again and do not overlap. -/
def Obligations.ShifterSlotsMakeUpTheGroup : Prop :=
  (∀ (v : Group) (k : Fin 4), (extract6 v k).toNat = v.toNat / 2 ^ (18 - 6 * k.val) % 64) ∧
  (∀ (i : Index) (k : Fin 4), (insert6 i k).toNat = i.toNat * 2 ^ (18 - 6 * k.val)) ∧
  (∀ v : Group, v = insert6 (extract6 v 0) 0 ||| insert6 (extract6 v 1) 1 ||| insert6 (extract6 v 2) 2 ||| insert6 (extract6 v 3) 3) ∧
  (∀ (i j : Index) (k l : Fin 4), k ≠ l → insert6 i k &&& insert6 j l = 0)

/-- R91, R113, R114: the packers are the source's sums, and the extractors take them apart again. -/
def Obligations.PackersAreTheSourcesSums : Prop :=
  (∀ b0 b1 b2 : Byte, (pack3 b0 b1 b2).toNat = b0.toNat * 65536 + b1.toNat * 256 + b2.toNat) ∧
  (∀ i0 i1 i2 i3 : Index,
    (pack4 i0 i1 i2 i3).toNat = i0.toNat * 262144 + i1.toNat * 4096 + i2.toNat * 64 + i3.toNat) ∧
  (∀ v : Group, pack4 (extract6 v 0) (extract6 v 1) (extract6 v 2) (extract6 v 3) = v) ∧
  (∀ (v : Group) (j : Fin 3), (extract8 v j).toNat = v.toNat / 2 ^ (16 - 8 * j.val) % 256) ∧
  (∀ b0 b1 b2 : Byte, extract8 (pack3 b0 b1 b2) 0 = b0 ∧ extract8 (pack3 b0 b1 b2) 1 = b1 ∧ extract8 (pack3 b0 b1 b2) 2 = b2)

/-- R115, R116: how many bytes a terminator yields, and where the bytes of a decode response stand. -/
def Obligations.FlushCountsAndEmittedLanes : Prop :=
  flushCount 0 = 0 ∧ flushCount 1 = 0 ∧ flushCount 2 = 1 ∧ flushCount 3 = 2 ∧
    ∀ (v : Group) (nb : Nat) (j : Fin 3), nb ≤ 3 →
      lane (emit v nb) 3 = 0 ∧ lane (emit v nb) ⟨j.val, by omega⟩ = if j.val < nb then extract8 v j else 0

/-- R24, R25: the I2C ROM is the alphabet in its order, with no character twice, none of them '=' or whitespace, all in 0x2B..0x7A. -/
def Obligations.IndexRomIsTheAlphabet : Prop :=
  (∀ i : Index, (i2c i).toNat = alphabet.getD i.toNat 0) ∧ (∀ i j : Index, i2c i = i2c j → i = j) ∧
    ∀ i : Index, 0x2B ≤ (i2c i).toNat ∧ (i2c i).toNat ≤ 0x7A ∧ i2c i ≠ 0x3D ∧ isSpaceCode (i2c i) = false

/-- R26, R27: the C2I ROM is the printed map, for both values of `NUL_TERMINATES`. -/
def Obligations.CharacterRomIsThePrintedMap : Prop :=
  ∀ (nul : Bool) (c : Byte),
    (c2i nul c).bits.toNat = c2iMapBits nul ((c2iMap.getD (c.toNat / 16) []).getD (c.toNat % 16) 67)

/-- R28: the two ROMs are inverse on the alphabet, and exactly 64 codes are of class ALPHA. -/
def Obligations.RomsAreInverseOnTheAlphabet : Prop :=
  ∀ nul : Bool, (∀ i : Index, c2i nul (i2c i) = ⟨.alpha, i⟩) ∧ (∀ c : Byte, (c2i nul c).cls = .alpha → i2c (c2i nul c).index = c) ∧
    ((List.range 256).filter fun n => (c2i nul (BitVec.ofNat 8 n)).cls == .alpha).length = 64

/-! ## The decoder -/

/-- R117: DEC_START, in every DSTATE, leaves ACTIVE with nothing pending; a second one leaves the same. -/
def Obligations.DecStartOpensAnOperation : Prop :=
  (∀ s : State, Answers .decStart s (emptyArch .active) .ok 0 0) ∧ decode 0x20000000 = .ok .decStart

/-- R124: outside ACTIVE a DEC_CHAR changes nothing, whatever its character. -/
def Obligations.DecCharOutsideActiveChangesNothing : Prop :=
  ∀ (s : State) (c : Byte),
    (s.arch.dstate = .idle → Answers (.decChar c) s s.arch .notActive 0 0) ∧
    (s.arch.dstate = .done ∨ s.arch.dstate = .fail → Answers (.decChar c) s s.arch .ignored 0 0)

/-- R119: an alphabet character fills the next position, or completes the group of four and yields its three bytes. -/
def Obligations.DecCharOfTheAlphabetFillsOrCompletes : Prop :=
  ∀ (s : State) (c : Byte) (idx : Index), s.arch.dstate = .active → c2i s.params.nulTerminates c = ⟨.alpha, idx⟩ →
    (s.arch.n = 0 → Answers (.decChar c) s { s.arch with t0 := idx, n := 1 } .ok 0 0) ∧
    (s.arch.n = 1 → Answers (.decChar c) s { s.arch with t1 := idx, n := 2 } .ok 0 0) ∧
    (s.arch.n = 2 → Answers (.decChar c) s { s.arch with t2 := idx, n := 3 } .ok 0 0) ∧
    (s.arch.n = 3 → Answers (.decChar c) s (emptyArch .active) .ok 3
      (decodedWord (s.arch.t0.toNat * 262144 + s.arch.t1.toNat * 4096 + s.arch.t2.toNat * 64 + idx.toNat) 3))

/-- R120: whitespace in ACTIVE changes nothing, for each of its six codes. -/
def Obligations.DecCharOfWhitespaceIsSkipped : Prop :=
  ∀ (s : State) (c : Byte), s.arch.dstate = .active → c ∈ ([0x08, 0x09, 0x0A, 0x0C, 0x0D, 0x20] : List Byte) →
    Answers (.decChar c) s s.arch .ok 0 0

/-- R121: '=' in ACTIVE flushes the pending indices and ends the operation, with max(N - 1, 0) bytes; DEC_END flushes likewise, to IDLE; and
after it every character is IGNORED. -/
def Obligations.DecCharOfPaddingFlushesAndEnds : Prop :=
  (∀ s : State, s.arch.dstate = .active →
    Answers (.decChar 0x3D) s (emptyArch .done) .ok (s.arch.n.toNat - 1) (decodedWord (pendingTuple s.arch) (s.arch.n.toNat - 1)) ∧
    Answers .decEnd s (emptyArch .idle) .ok (s.arch.n.toNat - 1) (decodedWord (pendingTuple s.arch) (s.arch.n.toNat - 1))) ∧
  ∀ (s : State) (c : Byte), s.arch.dstate = .done → Answers (.decChar c) s s.arch .ignored 0 0

/-- R122: 0x00 in ACTIVE acts as '=' when `NUL_TERMINATES`, and fails the operation when not. -/
def Obligations.DecCharOfNulFollowsTheParameter : Prop :=
  ∀ s : State, s.arch.dstate = .active →
    (s.params.nulTerminates = true → exec (.decChar 0x00) s = exec (.decChar 0x3D) s) ∧
    (s.params.nulTerminates = false → Answers (.decChar 0x00) s (emptyArch .fail) .invalidChar 0 0)

/-- R123: an invalid character in ACTIVE fails the operation and drops what is pending; then every character is IGNORED and DEC_END reports
INVALID_CHAR; all codes from 0x80, 0x0B, 0x7F, '@', '-' and '_' are invalid. -/
def Obligations.DecCharInvalidFailsTheOperation : Prop :=
  (∀ (s : State) (c : Byte), s.arch.dstate = .active → (c2i s.params.nulTerminates c).cls = .invalid →
    Answers (.decChar c) s (emptyArch .fail) .invalidChar 0 0) ∧
  (∀ (s : State) (c : Byte), s.arch.dstate = .fail →
    Answers (.decChar c) s s.arch .ignored 0 0 ∧ Answers .decEnd s { s.arch with dstate := .idle } .invalidChar 0 0) ∧
  ∀ (nul : Bool) (c : Byte), 0x80 ≤ c.toNat ∨ c ∈ ([0x0B, 0x7F, 0x40, 0x2D, 0x5F] : List Byte) → (c2i nul c).cls = .invalid

/-- R125: DEC_END by DSTATE; in a state that keeps the registers' invariant (R22, R30) it leaves IDLE with N and T0 to T2 zero. -/
def Obligations.DecEndClosesTheOperation : Prop :=
  decode 0x40000000 = .ok .decEnd ∧
  ∀ s : State,
    (s.arch.Inv → ∃ t, exec .decEnd s = .next t ∧ t.arch = emptyArch .idle) ∧
    (s.arch.dstate = .idle → Answers .decEnd s s.arch .notActive 0 0) ∧
    (s.arch.dstate = .active →
      Answers .decEnd s (emptyArch .idle) .ok (s.arch.n.toNat - 1) (decodedWord (pendingTuple s.arch) (s.arch.n.toNat - 1))) ∧
    (s.arch.dstate = .done → Answers .decEnd s { s.arch with dstate := .idle } .ok 0 0) ∧
    (s.arch.dstate = .fail → Answers .decEnd s { s.arch with dstate := .idle } .invalidChar 0 0)

/-- R128: the table of the decode state machine. -/
def Obligations.DecodeStateMachineIsTheTable : Prop :=
  ∀ (s : State) (c : Byte),
    (∀ i : Instr, i = .nop ∨ i = .query ∨ (∃ cnt b0 b1 b2, i = .encGroup cnt b0 b1 b2) →
      ∃ t, exec i s = .next t ∧ t.arch.dstate = s.arch.dstate) ∧
    (∀ (w : Word) (e : IllegalReason), decode w = .error e → (s.afterWord w).arch.dstate = s.arch.dstate) ∧
    Moves .decStart s .active .ok 0 ∧
    (s.arch.dstate = .active → ∃ t, exec .decStart s = .next t ∧ t.arch = emptyArch .active) ∧
    (s.arch.dstate = .idle → Moves (.decChar c) s .idle .notActive 0 ∧ Moves .decEnd s .idle .notActive 0) ∧
    (s.arch.dstate = .done → Moves (.decChar c) s .done .ignored 0 ∧ Moves .decEnd s .idle .ok 0) ∧
    (s.arch.dstate = .fail → Moves (.decChar c) s .fail .ignored 0 ∧ Moves .decEnd s .idle .invalidChar 0) ∧
    (s.arch.dstate = .active →
      Moves .decEnd s .idle .ok (s.arch.n.toNat - 1) ∧
      match (c2i s.params.nulTerminates c).cls with
      | .alpha => Moves (.decChar c) s .active .ok (if s.arch.n = 3 then 3 else 0)
      | .ws => Moves (.decChar c) s .active .ok 0
      | .pad => Moves (.decChar c) s .done .ok (s.arch.n.toNat - 1)
      | .term => Moves (.decChar c) s .done .ok (s.arch.n.toNat - 1)
      | .invalid => Moves (.decChar c) s .fail .invalidChar 0)

/-- R129: only the fourth index of a group yields three bytes, only a terminator in ACTIVE yields one or two, and no other command of a decode
operation yields any. -/
def Obligations.OnlyCompletionsAndTerminatorsYieldBytes : Prop :=
  ∀ (s : State) (i : Instr) (r : Response), i = .decStart ∨ (∃ c, i = .decChar c) ∨ i = .decEnd → responsesTo s [i] = [r] →
    (r.rcnt.toNat = 3 ↔ s.arch.dstate = .active ∧ s.arch.n = 3 ∧ ∃ c, i = .decChar c ∧ (c2i s.params.nulTerminates c).cls = .alpha) ∧
    (r.rcnt.toNat = 1 ∨ r.rcnt.toNat = 2 ↔ s.arch.dstate = .active ∧ 2 ≤ s.arch.n.toNat ∧
      (i = .decEnd ∨ ∃ c, i = .decChar c ∧ ((c2i s.params.nulTerminates c).cls = .pad ∨ (c2i s.params.nulTerminates c).cls = .term))) ∧
    r.rcnt.toNat ≤ 3

/-- R126: the low bits that a partial group discards are not checked: they change neither the status nor the bytes. -/
def Obligations.DiscardedLowBitsAreNotChecked : Prop :=
  ∀ (s : State) (t0 t1 t1' t2 t2' : Index) (i : Instr), i = .decChar 0x3D ∨ i = .decEnd →
    (t1.toNat / 16 = t1'.toNat / 16 →
      responsesTo { s with arch := ⟨.active, 2, t0, t1, t2⟩ } [i] = responsesTo { s with arch := ⟨.active, 2, t0, t1', t2⟩ } [i]) ∧
    (t2.toNat / 4 = t2'.toNat / 4 →
      responsesTo { s with arch := ⟨.active, 3, t0, t1, t2⟩ } [i] = responsesTo { s with arch := ⟨.active, 3, t0, t1, t2'⟩ } [i])

/-- R22, R30: after reset and after every command every position at or beyond N is zero, and nothing is pending outside ACTIVE; a command that
lowers N to 0 clears the positions, and one that raises N adds 1 and writes only the position it fills. -/
def Obligations.PositionsBeyondTheCountStayZero : Prop :=
  State.reset.arch.Inv ∧
  ∀ (i : Instr) (s t : State), s.arch.Inv → exec i s = .next t → t.arch.Inv ∧
    (t.arch.n.toNat < s.arch.n.toNat → t.arch.n = 0 ∧ t.arch.t0 = 0 ∧ t.arch.t1 = 0 ∧ t.arch.t2 = 0) ∧
    (s.arch.n.toNat < t.arch.n.toNat → t.arch.n.toNat = s.arch.n.toNat + 1 ∧
      (s.arch.n ≠ 0 → t.arch.t0 = s.arch.t0) ∧ (s.arch.n ≠ 1 → t.arch.t1 = s.arch.t1) ∧ (s.arch.n ≠ 2 → t.arch.t2 = s.arch.t2))

/-! ## The invariant of the machine -/

/-- The invariant holds after reset. -/
def Obligations.InvariantHoldsAfterReset : Prop := State.reset.Inv ∧ ∀ p : Params, p.WellFormed → (State.resetWith p).Inv

/-- Every step keeps the invariant: the accumulator's form, the depth and order of the responses in flight, the form of every response. -/
def Obligations.StepKeepsTheMachineInvariant : Prop := ∀ s t : State, s.Inv → step s = .next t → t.Inv

/-! ## The source's two functions -/

/-- R100: the commands of a host's encode, group by group, and its output. -/
def Obligations.HostEncodeIssuesOneCommandPerGroup : Prop :=
  ∀ (s : State) (x : List Byte),
    encodeCommands x =
      (List.range (x.length / 3)).map
          (fun g => Instr.encGroup 3 (x.getD (3 * g) 0) (x.getD (3 * g + 1) 0) (x.getD (3 * g + 2) 0)) ++
        (if x.length % 3 = 1 then [.encGroup 1 (x.getD (3 * (x.length / 3)) 0) 0 0]
         else if x.length % 3 = 2 then
          [.encGroup 2 (x.getD (3 * (x.length / 3)) 0) (x.getD (3 * (x.length / 3) + 1) 0) 0]
         else []) ∧
    hostEncode s x =
      (responsesTo s (encodeCommands x)).flatMap fun r => [lane r.rdata 0, lane r.rdata 1, lane r.rdata 2, lane r.rdata 3]

/-- R101: the length law, and the padding of one, two and three bytes. -/
def Obligations.EncodedLengthAndPadding : Prop :=
  (∀ (s : State) (b : List Byte), (hostEncode s b).length = 4 * ((b.length + 2) / 3)) ∧
  (∀ s : State, encodeCommands [] = [] ∧ hostEncode s [] = []) ∧
  (∀ (s : State) (x : Byte), ∃ c d, hostEncode s [x] = [c, d, 0x3D, 0x3D]) ∧
  (∀ (s : State) (x y : Byte), ∃ c d e, hostEncode s [x, y] = [c, d, e, 0x3D] ∧ c ≠ 0x3D ∧ d ≠ 0x3D ∧ e ≠ 0x3D) ∧
  (∀ (s : State) (x y z : Byte), (0x3D : Byte) ∉ hostEncode s [x, y, z])

/-- R102: for every byte sequence, decoding its encoding gives it back, from any states of the machine. -/
def Obligations.DecodeOfEncodeIsTheInput : Prop := ∀ (s s' : State) (b : List Byte), hostDecode s' (hostEncode s b) = some b

/-- R132: a host's decode is the source's decode algorithm, from any state; it fails exactly when an invalid character comes before the first
terminator, and else yields 3*G + nb(n) bytes. -/
def Obligations.HostDecodeIsTheSourcesDecode : Prop :=
  ∀ (s : State) (text : List Byte),
    hostDecode s text = sourceDecode s.params.nulTerminates text ∧
    (hostDecode s text = none ↔
      ∃ c ∈ beforeTerminator s.params.nulTerminates text, (c2i s.params.nulTerminates c).cls = .invalid) ∧
    ∀ out, hostDecode s text = some out →
      let n := alphaCount s.params.nulTerminates (beforeTerminator s.params.nulTerminates text)
      out.length = 3 * (n / 4) + (n % 4 - 1)

/-- R131: the host may stop issuing characters after the one that ends or fails the operation: the rest does not change the result. -/
def Obligations.StoppingAfterATerminatorOrAFailureKeepsTheResult : Prop :=
  ∀ (s : State) (before rest : List Byte) (c : Byte),
    (c2i s.params.nulTerminates c).cls = .pad ∨ (c2i s.params.nulTerminates c).cls = .term ∨
      (c2i s.params.nulTerminates c).cls = .invalid →
    hostDecode s (before ++ c :: rest) = hostDecode s (before ++ [c])

/-- R133: whitespace anywhere in a string does not change what it decodes to; the empty string decodes to nothing; and what follows a terminator is
ignored. -/
def Obligations.WhitespaceDoesNotChangeTheResult : Prop :=
  (∀ (s : State) (text : List Byte),
    hostDecode s (text.filter fun c => !((c2i s.params.nulTerminates c).cls == .ws)) = hostDecode s text) ∧
  (∀ s : State, hostDecode s [] = some []) ∧
  (∀ s : State,
    hostDecode s [0x54, 0x57, 0x46, 0x75, 0x3D, 0x3D, 0x3D, 0x3D, 0x58, 0x59, 0x5A] = some [0x4D, 0x61, 0x6E])

/-- R127: the DEC_END of an operation reports INVALID_CHAR exactly when one of its DEC_CHARs did; then the result is InvalidCharacter,
and else the concatenation of the stream outputs of its responses. -/
def Obligations.VerdictOfAnOperationComesAtItsEnd : Prop :=
  ∀ (s : State) (text : List Byte), ∃ r,
    responsesTo s (decodeCommands text) = responsesTo s (.decStart :: charCommands text) ++ [r] ∧
    (r.rst = .invalidChar ↔ ∃ q ∈ responsesTo s (.decStart :: charCommands text), q.rst = .invalidChar) ∧
    (r.rst = .invalidChar → hostDecode s text = none) ∧
    (r.rst ≠ .invalidChar →
      hostDecode s text = some (streamOutput (responsesTo s (.decStart :: charCommands text)) ++ r.stream))

/-- R130: words of whitespace, NOP, QUERY, ENC_GROUP and ILLEGAL words may be interleaved anywhere: without them the registers come out the same, and
every other command has the same response. -/
def Obligations.InterleavedWordsDoNotBearOnTheDecoder : Prop :=
  ∀ (s : State) (ws : List Word),
    (afterWords s ws).arch = (afterWords s (ws.filter fun w => !interleavable s.params.nulTerminates w)).arch ∧
    (((ws.zip (wordResponses s ws)).filter fun p => !interleavable s.params.nulTerminates p.1).map Prod.snd) =
      wordResponses s (ws.filter fun w => !interleavable s.params.nulTerminates w)
end

