-- ==== Sys2Proof/Laws/State.lean ====
section
/-!
SUPPORT. What each shared update does to each field, so that no proof unfolds a record update.
-/

namespace Sys2Proof.Machine

section Complete
variable (r : Arch × Response) (s : State)

@[simp] theorem State.complete_arch : (s.complete r).arch = r.1 := rfl
@[simp] theorem State.complete_inFlight :
    (s.complete r).inFlight = s.inFlight ++ [⟨r.2, s.params.rspLatency - 1⟩] := rfl
@[simp] theorem State.complete_rspRaised : (s.complete r).rspRaised = s.rspRaised := rfl
@[simp] theorem State.complete_cmdHeld : (s.complete r).cmdHeld = s.cmdHeld := rfl
@[simp] theorem State.complete_wasReset : (s.complete r).wasReset = s.wasReset := rfl
@[simp] theorem State.complete_params : (s.complete r).params = s.params := rfl
@[simp] theorem State.complete_inputs : (s.complete r).inputs = s.inputs := rfl
@[simp] theorem State.complete_taken : (s.complete r).taken = s.taken := rfl

end Complete

section ResetWith
variable (p : Params)

@[simp] theorem State.resetWith_arch : (State.resetWith p).arch = Arch.reset := rfl
@[simp] theorem State.resetWith_inFlight : (State.resetWith p).inFlight = [] := rfl
@[simp] theorem State.resetWith_rspRaised : (State.resetWith p).rspRaised = false := rfl
@[simp] theorem State.resetWith_cmdHeld : (State.resetWith p).cmdHeld = none := rfl
@[simp] theorem State.resetWith_wasReset : (State.resetWith p).wasReset = true := rfl
@[simp] theorem State.resetWith_params : (State.resetWith p).params = p := rfl
@[simp] theorem State.resetWith_inputs : (State.resetWith p).inputs = [] := rfl
@[simp] theorem State.resetWith_taken : (State.resetWith p).taken = [] := rfl

end ResetWith

section AfterReset
variable (s : State)

@[simp] theorem State.afterReset_arch : s.afterReset.arch = Arch.reset := rfl
@[simp] theorem State.afterReset_inFlight : s.afterReset.inFlight = [] := rfl
@[simp] theorem State.afterReset_rspRaised : s.afterReset.rspRaised = false := rfl
@[simp] theorem State.afterReset_cmdHeld : s.afterReset.cmdHeld = none := rfl
@[simp] theorem State.afterReset_wasReset : s.afterReset.wasReset = true := rfl
@[simp] theorem State.afterReset_params : s.afterReset.params = s.params := rfl
@[simp] theorem State.afterReset_inputs : s.afterReset.inputs = s.inputs := rfl
@[simp] theorem State.afterReset_taken : s.afterReset.taken = [] := rfl

end AfterReset

section WithCommand
variable (s : State) (w : Word)

@[simp] theorem State.withCommand_arch : (s.withCommand w).arch = s.arch := rfl
@[simp] theorem State.withCommand_inFlight : (s.withCommand w).inFlight = [] := rfl
@[simp] theorem State.withCommand_rspRaised : (s.withCommand w).rspRaised = false := rfl
@[simp] theorem State.withCommand_cmdHeld : (s.withCommand w).cmdHeld = none := rfl
@[simp] theorem State.withCommand_wasReset : (s.withCommand w).wasReset = true := rfl
@[simp] theorem State.withCommand_params : (s.withCommand w).params = s.params := rfl
@[simp] theorem State.withCommand_inputs : (s.withCommand w).inputs = Cycle.offer w :: s.inputs := rfl
@[simp] theorem State.withCommand_responses : (s.withCommand w).responses = s.responses := by
  simp [State.responses, State.withCommand]

end WithCommand

section Moved
variable (d : DState) (S : Arch)

@[simp] theorem Arch.moved_dstate : (S.moved d).dstate = d := rfl
@[simp] theorem Arch.moved_n : (S.moved d).n = 0 := rfl
@[simp] theorem Arch.moved_t0 : (S.moved d).t0 = 0 := rfl
@[simp] theorem Arch.moved_t1 : (S.moved d).t1 = 0 := rfl
@[simp] theorem Arch.moved_t2 : (S.moved d).t2 = 0 := rfl
@[simp] theorem Arch.cleared_dstate : S.cleared.dstate = S.dstate := rfl
@[simp] theorem Arch.cleared_n : S.cleared.n = 0 := rfl
@[simp] theorem Arch.cleared_t0 : S.cleared.t0 = 0 := rfl
@[simp] theorem Arch.cleared_t1 : S.cleared.t1 = 0 := rfl
@[simp] theorem Arch.cleared_t2 : S.cleared.t2 = 0 := rfl

end Moved

@[simp] theorem Arch.pushed_dstate (idx : Index) (S : Arch) : (S.pushed idx).dstate = S.dstate := by
  unfold Arch.pushed; split_ifs <;> rfl

@[simp] theorem InFlight.aged_rsp (e : InFlight) : e.aged.rsp = e.rsp := rfl
@[simp] theorem InFlight.aged_wait (e : InFlight) : e.aged.wait = e.wait - 1 := rfl

end Sys2Proof.Machine
end

