-- ==== Sys2Proof/Laws/Bits.lean ====
section
/-!
SUPPORT. Every bit-field operation of the model as arithmetic on natural numbers: concatenation is multiplication and sum, a field is division
and remainder. A proof about words takes `toNat` and ends with omega.
-/

namespace Sys2Proof.Laws

open Sys2Proof Sys2Proof.Machine

/-- Concatenation, with the left part in the most significant position (R7). -/
theorem append_toNat {m n : Nat} (x : BitVec m) (y : BitVec n) : (x ++ y).toNat = x.toNat * 2 ^ n + y.toNat := by
  rw [BitVec.toNat_append, ← Nat.shiftLeft_add_eq_or_of_lt y.isLt, Nat.shiftLeft_eq]

/-- The field of `n` bits from bit `lo` up. -/
theorem extract_toNat {m : Nat} (x : BitVec m) (lo n : Nat) :
    (x.extractLsb' lo n).toNat = x.toNat / 2 ^ lo % 2 ^ n := by
  rw [BitVec.extractLsb'_toNat, Nat.shiftRight_eq_div_pow]

/-! ## Command words -/

theorem assembleWord_toNat (op : BitVec 4) (cnt : BitVec 2) (data : Group) :
    (assembleWord op cnt data).toNat = op.toNat * 2 ^ 28 + cnt.toNat * 2 ^ 26 + data.toNat := by
  have h : (assembleWord op cnt data).toNat = (op ++ cnt ++ (0#2) ++ data : BitVec (4 + 2 + 2 + 24)).toNat := rfl
  rw [h]
  simp only [append_toNat, BitVec.toNat_ofNat]
  omega

theorem opField_toNat (w : Word) : (opField w).toNat = w.toNat / 2 ^ 28 := by
  have := w.isLt
  rw [opField, extract_toNat]
  omega

theorem cntField_toNat (w : Word) : (cntField w).toNat = w.toNat / 2 ^ 26 % 4 := extract_toNat w 26 2
theorem rsvField_toNat (w : Word) : (rsvField w).toNat = w.toNat / 2 ^ 24 % 4 := extract_toNat w 24 2
theorem dataField_toNat (w : Word) : (dataField w).toNat = w.toNat % 2 ^ 24 := by
  rw [dataField, extract_toNat]; simp
theorem charUpper_toNat (d : Group) : (charUpper d).toNat = d.toNat / 256 := by
  have := d.isLt
  rw [charUpper, extract_toNat]
  omega
theorem dataLane_toNat (d : Group) (k : Fin 3) : (dataLane d k).toNat = d.toNat / 2 ^ (16 - 8 * k.val) % 256 :=
  extract_toNat d _ 8

/-- The operand of an ENC_GROUP word. -/
theorem threeBytes_toNat (b0 b1 b2 : Byte) :
    (b0 ++ b1 ++ b2 : Group).toNat = b0.toNat * 65536 + b1.toNat * 256 + b2.toNat := by
  have h : (b0 ++ b1 ++ b2 : Group).toNat = (b0 ++ b1 ++ b2 : BitVec (8 + 8 + 8)).toNat := rfl
  rw [h]
  simp only [append_toNat]
  omega

/-- The operand of a DEC_CHAR word. -/
theorem charData_toNat (c : Byte) : ((0 : BitVec 16) ++ c : Group).toNat = c.toNat := by
  have h : ((0 : BitVec 16) ++ c : Group).toNat = ((0 : BitVec 16) ++ c : BitVec (16 + 8)).toNat := rfl
  rw [h, append_toNat]
  simp

/-! ## Lanes -/

theorem lanes_toNat (l0 l1 l2 l3 : Byte) :
    (lanes l0 l1 l2 l3).toNat = l0.toNat * 2 ^ 24 + l1.toNat * 2 ^ 16 + l2.toNat * 2 ^ 8 + l3.toNat := by
  have h : (lanes l0 l1 l2 l3).toNat = (l0 ++ l1 ++ l2 ++ l3 : BitVec (8 + 8 + 8 + 8)).toNat := rfl
  rw [h]
  simp only [append_toNat]
  omega

theorem lane_toNat (w : Word) (k : Fin 4) : (lane w k).toNat = w.toNat / 2 ^ (24 - 8 * k.val) % 256 :=
  extract_toNat w _ 8

section Lanes
variable (l0 l1 l2 l3 : Byte)

@[simp] theorem lane_lanes_0 : lane (lanes l0 l1 l2 l3) 0 = l0 := by
  apply BitVec.eq_of_toNat_eq; rw [lane_toNat, lanes_toNat]; simp; omega
@[simp] theorem lane_lanes_1 : lane (lanes l0 l1 l2 l3) 1 = l1 := by
  apply BitVec.eq_of_toNat_eq; rw [lane_toNat, lanes_toNat]; simp; omega
@[simp] theorem lane_lanes_2 : lane (lanes l0 l1 l2 l3) 2 = l2 := by
  apply BitVec.eq_of_toNat_eq; rw [lane_toNat, lanes_toNat]; simp; omega
@[simp] theorem lane_lanes_3 : lane (lanes l0 l1 l2 l3) 3 = l3 := by
  apply BitVec.eq_of_toNat_eq; rw [lane_toNat, lanes_toNat]; simp; omega

/-- A word of zeros has zero in every lane. -/
@[simp] theorem lane_zero (k : Fin 4) : lane 0#32 k = 0#8 := by
  apply BitVec.eq_of_toNat_eq; rw [lane_toNat]; simp

/-- The lanes of an ENC_GROUP response are the padding logic's characters. -/
theorem lane_groupChars (cnt : BitVec 2) (v : Group) (k : Fin 4) : lane (groupChars cnt v) k = laneChar cnt v k := by
  match k with
  | 0 => exact lane_lanes_0 ..
  | 1 => exact lane_lanes_1 ..
  | 2 => exact lane_lanes_2 ..
  | 3 => exact lane_lanes_3 ..

end Lanes

/-! ## Sums of disjoint fields -/

/-- `|` of a multiple of `2^k` and a number below `2^k` is their sum. -/
theorem or_eq_add {a b : Nat} (k : Nat) (h : a % 2 ^ k = 0) (hb : b < 2 ^ k) : a ||| b = a + b := by
  obtain ⟨c, hc⟩ := Nat.dvd_of_mod_eq_zero h
  rw [hc, mul_comm, ← Nat.shiftLeft_eq, Nat.shiftLeft_add_eq_or_of_lt hb]

/-! ## The status word -/

theorem statusView_toNat (nul : Bool) (S : Arch) :
    (statusView nul S).toNat = S.t0.toNat * 2 ^ 26 + S.t1.toNat * 2 ^ 20 + S.t2.toNat * 2 ^ 14 +
      (BitVec.ofBool nul).toNat * 256 + S.n.toNat * 4 + S.dstate.code.toNat := by
  have h : (statusView nul S).toNat =
      (S.t0 ++ S.t1 ++ S.t2 ++ 0#5 ++ BitVec.ofBool nul ++ 0#4 ++ S.n ++ S.dstate.code :
        BitVec (6 + 6 + 6 + 5 + 1 + 4 + 2 + 2)).toNat := rfl
  rw [h]
  simp only [append_toNat, BitVec.toNat_ofNat]
  omega

end Sys2Proof.Laws
end

