-- ==== Sys2Proof/Laws/Ops.lean ====
section
/-!
SUPPORT. What the commands do, said once: the spec's pure function `step(P, S, cmd) = (S', rsp)` (00_scope.md R11) of a command and of a
word, the lemmas that `exec`, `issue` and `afterWord` are that function carried by `State.complete`, and what each transition of the decode
operation can do.
-/

namespace Sys2Proof.Laws

open Sys2Proof Sys2Proof.Machine

/-- S' and the response of a command. -/
def effect (p : Params) (S : Arch) : Instr → Arch × Response
  | .nop => (S, respond .ok 0 0)
  | .encGroup cnt b0 b1 b2 =>
    if cnt = 0 then (S, respond .illegalCmd 0 0) else (S, respond .ok 4 (groupChars cnt (maskedGroup cnt b0 b1 b2)))
  | .decStart => (S.moved .active, respond .ok 0 0)
  | .decChar c =>
    match S.dstate with
    | .idle => (S, respond .notActive 0 0)
    | .done => (S, respond .ignored 0 0)
    | .fail => (S, respond .ignored 0 0)
    | .active => S.scanned p.nulTerminates c
  | .decEnd =>
    match S.dstate with
    | .idle => (S, respond .notActive 0 0)
    | .active => S.terminated .idle
    | .done => ({ S with dstate := .idle }, respond .ok 0 0)
    | .fail => ({ S with dstate := .idle }, respond .invalidChar 0 0)
  | .query => (S, respond .ok 0 (statusView p.nulTerminates S))

/-- S' and the response of a word. -/
def wordEffect (p : Params) (S : Arch) (w : Word) : Arch × Response :=
  match decode w with
  | .ok i => effect p S i
  | .error _ => (S, respond .illegalCmd 0 0)

/-- S' and the responses of a stream of commands. -/
def effects (p : Params) (S : Arch) : List Instr → Arch × List Response
  | [] => (S, [])
  | i :: is =>
    let e := effect p S i
    let r := effects p e.1 is
    (r.1, e.2 :: r.2)

/-- Every command ends in a next state, and that state is `State.complete` of its effect. -/
theorem exec_eq (i : Instr) (s : State) : exec i s = .next (s.complete (effect s.params s.arch i)) := by
  cases i with
  | nop => rfl
  | encGroup cnt b0 b1 b2 =>
    simp only [exec, execEncGroup, effect]
    split_ifs <;> rfl
  | decStart => rfl
  | decChar c =>
    simp only [exec, execDecChar, effect]
    cases s.arch.dstate <;> rfl
  | decEnd =>
    simp only [exec, execDecEnd, effect]
    cases s.arch.dstate <;> rfl
  | query => rfl

@[simp] theorem issue_nil (s : State) : issue s [] = s := rfl

@[simp] theorem issue_cons (s : State) (i : Instr) (p : List Instr) :
    issue s (i :: p) = issue (s.complete (effect s.params s.arch i)) p := by
  simp [issue, exec_eq]

theorem afterWord_eq (s : State) (w : Word) : s.afterWord w = s.complete (wordEffect s.params s.arch w) := by
  unfold State.afterWord wordEffect
  cases decode w <;> simp [State.completeIllegal]

/-- A stream of commands changes S and adds one response for each; nothing else. -/
theorem issue_eq (s : State) (p : List Instr) :
    issue s p = { s with
      arch := (effects s.params s.arch p).1
      inFlight := s.inFlight ++ (effects s.params s.arch p).2.map fun r => ⟨r, s.params.rspLatency - 1⟩ } := by
  induction p generalizing s with
  | nil => simp [effects]
  | cons i p ih => simp [ih, effects, State.complete]

@[simp] theorem issue_arch (s : State) (p : List Instr) : (issue s p).arch = (effects s.params s.arch p).1 := by
  rw [issue_eq]

@[simp] theorem responsesTo_eq (s : State) (p : List Instr) : responsesTo s p = (effects s.params s.arch p).2 := by
  simp [responsesTo, issue_eq, Function.comp_def]

theorem effects_append (q : Params) (S : Arch) (a b : List Instr) :
    effects q S (a ++ b) =
      ((effects q (effects q S a).1 b).1, (effects q S a).2 ++ (effects q (effects q S a).1 b).2) := by
  induction a generalizing S with
  | nil => simp [effects]
  | cons i a ih => simp [effects, ih]

@[simp] theorem effects_length (q : Params) (S : Arch) (p : List Instr) : (effects q S p).2.length = p.length := by
  induction p generalizing S with
  | nil => rfl
  | cons i p ih => simp [effects, ih]

/-! ## The transitions of the decode operation -/

/-- The four ways a character can act on a decode operation that scans. -/
theorem scanned_cases (nul : Bool) (c : Byte) (S : Arch) :
    ((c2i nul c).cls = .alpha ∧ S.scanned nul c = S.alpha (c2i nul c).index) ∨
    ((c2i nul c).cls = .ws ∧ S.scanned nul c = (S, respond .ok 0 0)) ∨
    (((c2i nul c).cls = .pad ∨ (c2i nul c).cls = .term) ∧ S.scanned nul c = S.terminated .done) ∨
    ((c2i nul c).cls = .invalid ∧ S.scanned nul c = S.failed) := by
  unfold Arch.scanned
  cases h : (c2i nul c).cls <;> simp [h]

/-- An accumulated count is 0, 1, 2 or 3. -/
theorem count_cases (n : BitVec 2) : n = 0 ∨ n = 1 ∨ n = 2 ∨ n = 3 := by
  revert n; decide

theorem reset_inv : Arch.reset.Inv := ⟨fun _ => rfl, fun _ => rfl, fun _ => rfl, fun _ => rfl⟩

theorem moved_inv (d : DState) (S : Arch) : (S.moved d).Inv := ⟨fun _ => rfl, fun _ => rfl, fun _ => rfl, fun _ => rfl⟩

/-- Clearing the accumulator establishes the registers' invariant. -/
theorem cleared_inv (S : Arch) : S.cleared.Inv := ⟨fun _ => rfl, fun _ => rfl, fun _ => rfl, fun _ => rfl⟩

/-- Filling the next position while ACTIVE keeps the registers' invariant. -/
theorem pushed_inv {S : Arch} (idx : Index) (h : S.Inv) (hd : S.dstate = .active) (hn : S.n ≠ 3) : (S.pushed idx).Inv := by
  obtain ⟨h0, h1, h2, h3⟩ := h
  rcases count_cases S.n with e | e | e | e
  · constructor <;> simp_all [Arch.pushed]
  · constructor <;> simp_all [Arch.pushed]
  · constructor <;> simp_all [Arch.pushed]
  · exact absurd e hn

end Sys2Proof.Laws
end

