-- ==== Sys2Proof/Laws/Channel.lean ====
section
/-!
SUPPORT. What an edge does to the channels, and what a step can do, each said once.
-/

namespace Sys2Proof.Laws

open Sys2Proof Sys2Proof.Machine

/-! ## The response side -/

theorem hasRoom_iff (s : State) : s.hasRoom = true ↔ s.inFlight.length < s.params.rspDepth := by
  unfold State.hasRoom
  split <;> simp <;> omega

/-- The response offered is the oldest one in flight, once its wait is over. -/
theorem offered_eq_some {s : State} {c : Cycle} {r : Response} :
    s.offered c = some r ↔
      ∃ e rest, s.inFlight = e :: rest ∧ e.wait = 0 ∧ (s.rspRaised = true ∨ c.rspHold = false) ∧ e.rsp = r := by
  unfold State.offered
  cases h : s.inFlight with
  | nil => simp
  | cons e rest =>
    simp only [List.cons.injEq, Option.ite_none_right_eq_some, Option.some.injEq]
    constructor
    · rintro ⟨⟨h1, h2⟩, h3⟩
      exact ⟨e, rest, ⟨rfl, rfl⟩, h1, h2, h3⟩
    · rintro ⟨e', rest', ⟨rfl, rfl⟩, h1, h2, h3⟩
      exact ⟨⟨h1, h2⟩, h3⟩

/-- The three things an edge can do on the response side: nothing is offered; the offered response is taken; it stays raised. -/
theorem served_cases (s : State) (c : Cycle) :
    (s.offered c = none ∧
      s.served c = { s with inFlight := s.inFlight.map InFlight.aged, rspRaised := false }) ∨
    (∃ e rest, s.inFlight = e :: rest ∧ e.wait = 0 ∧ s.offered c = some e.rsp ∧ c.rspReady = true ∧
      s.served c = { s with
        inFlight := rest.map InFlight.aged, rspRaised := false, taken := s.taken ++ [e.rsp] }) ∨
    (∃ e rest, s.inFlight = e :: rest ∧ e.wait = 0 ∧ s.offered c = some e.rsp ∧ c.rspReady = false ∧
      s.served c = { s with inFlight := s.inFlight.map InFlight.aged, rspRaised := true }) := by
  cases h : s.offered c with
  | none => exact .inl ⟨rfl, by simp [State.served, h]⟩
  | some r =>
    obtain ⟨e, rest, h1, h2, -, rfl⟩ := offered_eq_some.1 h
    cases hr : c.rspReady with
    | true => exact .inr (.inl ⟨e, rest, h1, h2, rfl, rfl, by simp [State.served, h, hr, h1]⟩)
    | false => exact .inr (.inr ⟨e, rest, h1, h2, rfl, rfl, by simp [State.served, h, hr]⟩)

section Served
variable (s : State) (c : Cycle)

@[simp] theorem served_arch : (s.served c).arch = s.arch := by
  rcases served_cases s c with ⟨-, h⟩ | ⟨_, _, -, -, -, -, h⟩ | ⟨_, _, -, -, -, -, h⟩ <;> rw [h]

@[simp] theorem served_params : (s.served c).params = s.params := by
  rcases served_cases s c with ⟨-, h⟩ | ⟨_, _, -, -, -, -, h⟩ | ⟨_, _, -, -, -, -, h⟩ <;> rw [h]

@[simp] theorem served_wasReset : (s.served c).wasReset = s.wasReset := by
  rcases served_cases s c with ⟨-, h⟩ | ⟨_, _, -, -, -, -, h⟩ | ⟨_, _, -, -, -, -, h⟩ <;> rw [h]

@[simp] theorem served_inputs : (s.served c).inputs = s.inputs := by
  rcases served_cases s c with ⟨-, h⟩ | ⟨_, _, -, -, -, -, h⟩ | ⟨_, _, -, -, -, -, h⟩ <;> rw [h]

/-- Serving a response moves it from in flight to taken; the sequence of all responses stays. -/
@[simp] theorem served_responses : (s.served c).responses = s.responses := by
  rcases served_cases s c with ⟨-, h⟩ | ⟨e, rest, h1, -, -, -, h⟩ | ⟨_, _, -, -, -, -, h⟩ <;>
    simp [State.responses, Function.comp_def, *]

/-- The response side reads neither the schedule nor the command pins it holds. -/
@[simp] theorem offered_inputs (l : List Cycle) : ({ s with inputs := l } : State).offered c = s.offered c := rfl

theorem served_inputs_comm (l : List Cycle) :
    ({ s with inputs := l } : State).served c = { s.served c with inputs := l } := by
  simp only [State.served, offered_inputs]
  split
  · rfl
  · split_ifs <;> rfl

end Served

/-! ## The edge -/

/-- The state in which an edge without reset leaves everything but the command pins: the response side moved, the cycle used up. -/
def afterCycle (s : State) (held : Option Word) : State :=
  { ({ s with inputs := s.inputs.tail } : State).served s.nextCycle with cmdHeld := held }

theorem edge_eq (s : State) : s.edge =
    if s.nextCycle.rst = true then .reset { State.resetWith s.params with inputs := s.inputs.tail }
    else if s.wasReset = false then .notReset
    else if s.breaksHandshake s.nextCycle = true then .broken
    else if s.nextCycle.cmdValid = false then .idle (afterCycle s none)
    else if s.cmdReady s.nextCycle = true then .accept s.nextCycle.cmdData (afterCycle s none)
    else .idle (afterCycle s (some s.nextCycle.cmdData)) := rfl

/-- Everything an edge can be, with its guards. -/
theorem edge_cases (s : State) :
    (s.nextCycle.rst = true ∧ s.edge = .reset { State.resetWith s.params with inputs := s.inputs.tail }) ∨
    (s.nextCycle.rst = false ∧ s.wasReset = false ∧ s.edge = .notReset) ∨
    (s.nextCycle.rst = false ∧ s.wasReset = true ∧ s.breaksHandshake s.nextCycle = true ∧ s.edge = .broken) ∨
    (s.nextCycle.rst = false ∧ s.wasReset = true ∧ s.breaksHandshake s.nextCycle = false ∧
      (s.nextCycle.cmdValid = false ∨ s.cmdReady s.nextCycle = false) ∧
      ∃ held, s.edge = .idle (afterCycle s held)) ∨
    (s.nextCycle.rst = false ∧ s.wasReset = true ∧ s.breaksHandshake s.nextCycle = false ∧
      s.nextCycle.cmdValid = true ∧ s.cmdReady s.nextCycle = true ∧
      s.edge = .accept s.nextCycle.cmdData (afterCycle s none)) := by
  rw [edge_eq]
  split_ifs with h1 h2 h3 h4 h5 <;> simp only [Bool.not_eq_true, Bool.not_eq_false] at *
  · exact .inl ⟨h1, trivial⟩
  · exact .inr (.inl ⟨h1, h2, trivial⟩)
  · exact .inr (.inr (.inl ⟨h1, h2, h3, trivial⟩))
  · exact .inr (.inr (.inr (.inl ⟨h1, h2, h3, .inl h4, _, rfl⟩)))
  · exact .inr (.inr (.inr (.inr ⟨h1, h2, h3, h4, h5, trivial⟩)))
  · exact .inr (.inr (.inr (.inl ⟨h1, h2, h3, .inr h5, _, rfl⟩)))

@[simp] theorem afterCycle_arch (s : State) (h : Option Word) : (afterCycle s h).arch = s.arch := by simp [afterCycle]
@[simp] theorem afterCycle_params (s : State) (h : Option Word) : (afterCycle s h).params = s.params := by simp [afterCycle]
@[simp] theorem afterCycle_wasReset (s : State) (h : Option Word) : (afterCycle s h).wasReset = s.wasReset := by
  simp [afterCycle]
@[simp] theorem afterCycle_inputs (s : State) (h : Option Word) : (afterCycle s h).inputs = s.inputs.tail := by
  simp [afterCycle]
@[simp] theorem afterCycle_cmdHeld (s : State) (h : Option Word) : (afterCycle s h).cmdHeld = h := rfl
@[simp] theorem afterCycle_inFlight (s : State) (h : Option Word) :
    (afterCycle s h).inFlight = (s.served s.nextCycle).inFlight := by simp [afterCycle, served_inputs_comm]
@[simp] theorem afterCycle_taken (s : State) (h : Option Word) :
    (afterCycle s h).taken = (s.served s.nextCycle).taken := by simp [afterCycle, served_inputs_comm]
@[simp] theorem afterCycle_rspRaised (s : State) (h : Option Word) :
    (afterCycle s h).rspRaised = (s.served s.nextCycle).rspRaised := by simp [afterCycle, served_inputs_comm]
@[simp] theorem afterCycle_responses (s : State) (h : Option Word) : (afterCycle s h).responses = s.responses := by
  have := served_responses s s.nextCycle
  simpa [State.responses] using this

@[simp] theorem complete_responses (r : Arch × Response) (s : State) :
    (s.complete r).responses = s.responses ++ [r.2] := by simp [State.responses]

theorem cmdReady_iff (s : State) (c : Cycle) :
    s.cmdReady c = true ↔
      c.rst = false ∧ (s.served c).inFlight.length < s.params.rspDepth ∧ c.cmdStall = false := by
  simp [State.cmdReady, hasRoom_iff, and_assoc]

/-! ## The step -/

/-- Everything a step to a next state can be. -/
theorem step_cases {s t : State} (h : step s = .next t) :
    (s.nextCycle.rst = true ∧ s.acceptedWord = none ∧ t = { State.resetWith s.params with inputs := s.inputs.tail }) ∨
    (s.nextCycle.rst = false ∧ s.wasReset = true ∧ s.acceptedWord = none ∧ (∃ held, t = afterCycle s held) ∧
      (s.nextCycle.cmdValid = false ∨ s.cmdReady s.nextCycle = false)) ∨
    (s.nextCycle.rst = false ∧ s.wasReset = true ∧ s.acceptedWord = some s.nextCycle.cmdData ∧
      s.cmdReady s.nextCycle = true ∧
      t = (afterCycle s none).complete (wordEffect s.params s.arch s.nextCycle.cmdData)) := by
  unfold step at h
  unfold State.acceptedWord
  rcases edge_cases s with ⟨h1, e⟩ | ⟨-, -, e⟩ | ⟨-, -, -, e⟩ | ⟨h1, h2, -, h3, held, e⟩ | ⟨h1, h2, -, -, h3, e⟩
  all_goals rw [e] at h ⊢
  · cases h; exact .inl ⟨h1, rfl, rfl⟩
  · cases h
  · cases h
  · cases h; exact .inr (.inl ⟨h1, h2, rfl, ⟨_, rfl⟩, h3⟩)
  · refine .inr (.inr ⟨h1, h2, rfl, h3, ?_⟩)
    unfold wordEffect
    cases hd : decode s.nextCycle.cmdData <;>
      simpa [hd, exec_eq, State.completeIllegal, eq_comm] using h

/-- An accepted word always has a next state. -/
theorem step_of_accepted {s : State} {w : Word} (h : s.acceptedWord = some w) :
    step s = .next ((afterCycle s none).complete (wordEffect s.params s.arch w)) := by
  unfold State.acceptedWord at h
  unfold step
  rcases edge_cases s with ⟨-, e⟩ | ⟨-, -, e⟩ | ⟨-, -, -, e⟩ | ⟨-, -, -, -, held, e⟩ | ⟨-, -, -, -, -, e⟩
  all_goals rw [e] at h ⊢
  all_goals simp only [reduceCtorEq, Option.some.injEq] at h
  subst h
  unfold wordEffect
  cases hd : decode s.nextCycle.cmdData <;> simp [hd, exec_eq, State.completeIllegal]

end Sys2Proof.Laws
end

