-- ==== Sys2Proof/Laws/Decode.lean ====
section
/-!
SUPPORT. The decoder field by field: what `assembleWord` puts where, and what each format accepts (30_encoding.md R70 to R73).
-/

namespace Sys2Proof.Laws

open Sys2Proof Sys2Proof.Machine

section Fields
variable (op : BitVec 4) (cnt : BitVec 2) (d : Group)

@[simp] theorem opField_assembleWord : opField (assembleWord op cnt d) = op := by
  have := assembleWord_toNat op cnt d; have := op.isLt; have := cnt.isLt; have := d.isLt
  apply BitVec.eq_of_toNat_eq; rw [opField_toNat]; omega

@[simp] theorem cntField_assembleWord : cntField (assembleWord op cnt d) = cnt := by
  have := assembleWord_toNat op cnt d; have := op.isLt; have := cnt.isLt; have := d.isLt
  apply BitVec.eq_of_toNat_eq; rw [cntField_toNat]; omega

@[simp] theorem rsvField_assembleWord : rsvField (assembleWord op cnt d) = 0 := by
  have := assembleWord_toNat op cnt d; have := op.isLt; have := cnt.isLt; have := d.isLt
  apply BitVec.eq_of_toNat_eq; rw [rsvField_toNat]; simp; omega

@[simp] theorem dataField_assembleWord : dataField (assembleWord op cnt d) = d := by
  have := assembleWord_toNat op cnt d; have := op.isLt; have := cnt.isLt; have := d.isLt
  apply BitVec.eq_of_toNat_eq; rw [dataField_toNat]; omega

/-- An assembled word has no reserved bit set, so the opcode map decides. -/
theorem decode_assembleWord : decode (assembleWord op cnt d) = decodeOp op cnt d := by simp [decode]

end Fields

/-- A word without reserved bits is its fields put together. -/
theorem assembleWord_fields {w : Word} (h : rsvField w = 0) : assembleWord (opField w) (cntField w) (dataField w) = w := by
  apply BitVec.eq_of_toNat_eq
  have := congrArg BitVec.toNat h
  rw [rsvField_toNat] at this
  rw [assembleWord_toNat, opField_toNat, cntField_toNat, dataField_toNat]
  simp at this; omega

/-- The operand of an ENC_GROUP word is its three lanes. -/
theorem dataLanes_append (d : Group) : (dataLane d 0 ++ dataLane d 1 ++ dataLane d 2 : Group) = d := by
  apply BitVec.eq_of_toNat_eq; rw [threeBytes_toNat, dataLane_toNat, dataLane_toNat, dataLane_toNat]
  have := d.isLt; simp; omega

theorem op_cases (op : BitVec 4) : op = 0 ∨ op = 1 ∨ op = 2 ∨ op = 3 ∨ op = 4 ∨ op = 5 ∨ 6 ≤ op.toNat := by
  revert op; decide

theorem decodeOp_reserved {op : BitVec 4} (h : 6 ≤ op.toNat) (cnt : BitVec 2) (d : Group) :
    decodeOp op cnt d = .error .reservedOpcode := by
  unfold decodeOp
  rw [if_neg, if_neg, if_neg, if_neg, if_neg, if_neg] <;> rintro rfl <;> simp at h

theorem decodeZ_ok {i j : Instr} {cnt : BitVec 2} {d : Group} : decodeZ i cnt d = .ok j ↔ cnt = 0 ∧ d = 0 ∧ i = j := by
  unfold decodeZ; split_ifs <;> simp_all

theorem decodeG_ok {j : Instr} {cnt : BitVec 2} {d : Group} :
    decodeG cnt d = .ok j ↔ cnt ≠ 0 ∧ j = .encGroup cnt (dataLane d 0) (dataLane d 1) (dataLane d 2) := by
  unfold decodeG; split_ifs with h
  · simp [h]
  · simp only [Except.ok.injEq]; exact ⟨fun e => ⟨h, e.symm⟩, fun e => e.2.symm⟩

theorem decodeC_ok {j : Instr} {cnt : BitVec 2} {d : Group} :
    decodeC cnt d = .ok j ↔ cnt = 0 ∧ charUpper d = 0 ∧ j = .decChar (dataLane d 2) := by
  unfold decodeC; split_ifs with h1 h2 <;> simp_all; exact ⟨fun e => e.symm, fun e => e.symm⟩

end Sys2Proof.Laws
end

