-- ==== Sys2Proof/Laws/PerInstr.lean ====
section
/-!
SUPPORT. Statements for all commands, made one constructor at a time.

`EncodedShape`: the word of a command has RSV = 00 and an opcode that R74 does not reserve (30_encoding.md R71, R74).
-/

namespace Sys2Proof.Laws.EncodedShape

open Sys2Proof

/-- The word of `i` has its reserved bits 0 and one of the six opcodes in use. -/
def Statement (i : Instr) : Prop := rsvField (encode i) = 0 ∧ (opField (encode i)).toNat < 6

theorem nop : Statement .nop := by simp [Statement, encode]
theorem encGroup (cnt : BitVec 2) (b0 b1 b2 : Byte) : Statement (.encGroup cnt b0 b1 b2) := by simp [Statement, encode]
theorem decStart : Statement .decStart := by simp [Statement, encode]
theorem decChar (c : Byte) : Statement (.decChar c) := by simp [Statement, encode]
theorem decEnd : Statement .decEnd := by simp [Statement, encode]
theorem query : Statement .query := by simp [Statement, encode]

end Sys2Proof.Laws.EncodedShape
end

