-- ==== Sys2Proof/Laws/Runs.lean ====
section
/-!
SUPPORT. Runs without end: what one cycle of a run can be, and what stays the same along it.
-/

namespace Sys2Proof.Laws

open Sys2Proof Sys2Proof.Machine

section Under
variable (s : State) (c : Cycle)

@[simp] theorem under_arch : (s.under c).arch = s.arch := rfl
@[simp] theorem under_inFlight : (s.under c).inFlight = s.inFlight := rfl
@[simp] theorem under_rspRaised : (s.under c).rspRaised = s.rspRaised := rfl
@[simp] theorem under_cmdHeld : (s.under c).cmdHeld = s.cmdHeld := rfl
@[simp] theorem under_wasReset : (s.under c).wasReset = s.wasReset := rfl
@[simp] theorem under_params : (s.under c).params = s.params := rfl
@[simp] theorem under_inputs : (s.under c).inputs = [c] := rfl
@[simp] theorem under_taken : (s.under c).taken = s.taken := rfl
@[simp] theorem under_responses : (s.under c).responses = s.responses := rfl
@[simp] theorem under_nextCycle : (s.under c).nextCycle = c := rfl
@[simp] theorem under_offered (d : Cycle) : (s.under c).offered d = s.offered d := rfl

theorem under_served (d : Cycle) : (s.under c).served d = { s.served d with inputs := [c] } := served_inputs_comm s d [c]

@[simp] theorem under_hasRoom_served (d : Cycle) : ((s.under c).served d).hasRoom = (s.served d).hasRoom := by
  rw [under_served]; rfl

@[simp] theorem under_cmdReady (d : Cycle) : (s.under c).cmdReady d = s.cmdReady d := by simp [State.cmdReady]

end Under

/-- `cmd_ready` is what may be, unless the implementation stalls. -/
theorem cmdReady_eq_mayAccept (s : State) (c : Cycle) : s.cmdReady c = (s.mayAccept c && !c.cmdStall) := rfl

theorem mayOffer_iff (s : State) : s.mayOffer = true ↔ ∃ e rest, s.inFlight = e :: rest ∧ e.wait = 0 := by
  unfold State.mayOffer
  split <;> simp_all

/-- A response that may be offered and is not held back is offered. -/
theorem offered_of_mayOffer {s : State} {c : Cycle} (h : s.mayOffer = true) (hc : c.rspHold = false) :
    ∃ r, s.offered c = some r := by
  obtain ⟨e, rest, h1, h2⟩ := (mayOffer_iff s).1 h
  exact ⟨e.rsp, offered_eq_some.2 ⟨e, rest, h1, h2, .inr hc, rfl⟩⟩

section Run
variable {env : Nat → Cycle} {run : Nat → State}

/-- A cycle without reset: the response side moves, and at most one response joins the responses in flight, which it does only with `cmd_ready`. -/
theorem run_cycle (h : IsRun env run) {n : Nat} (hr : (env n).rst = false) :
    (run n).wasReset = true ∧ (run (n + 1)).taken = ((run n).served (env n)).taken ∧
    ((run (n + 1)).inFlight = ((run n).served (env n)).inFlight ∨
      (run n).cmdReady (env n) = true ∧ ∃ e, (run (n + 1)).inFlight = ((run n).served (env n)).inFlight ++ [e]) := by
  rcases step_cases (h.steps n) with ⟨h1, -⟩ | ⟨-, h2, -, ⟨held, e⟩, -⟩ | ⟨-, h2, -, h4, e⟩
  · simp [hr] at h1
  · rw [e]; simp only [under_wasReset] at h2
    exact ⟨h2, by simp [under_served], .inl (by simp [under_served])⟩
  · rw [e]; simp only [under_wasReset] at h2
    exact ⟨h2, by simp [under_served], .inr ⟨by simpa using h4, _, by simp [under_served]; rfl⟩⟩

/-- The parameters are the same all along a run. -/
theorem run_params (h : IsRun env run) (n : Nat) : (run n).params = (run 0).params := by
  induction n with
  | zero => rfl
  | succ n ih =>
    rw [← ih]
    rcases step_cases (h.steps n) with ⟨-, -, e⟩ | ⟨-, -, -, ⟨held, e⟩, -⟩ | ⟨-, -, -, -, e⟩ <;> rw [e] <;> simp

end Run

end Sys2Proof.Laws
end

