-- ==== Sys2Proof/Machine/Assembler.lean ====
section
/-!
DEFINITION. The assembler's lines and the pseudo-commands (30_encoding.md R80, R81): one line of text to the commands it stands for.
Characters are 8-bit ASCII codes (10_state.md R23). A line that is not of the form R80 and R81 give has no commands (`none`).
-/

namespace Sys2Proof.Machine

/-- A token of a line. -/
inductive AsmToken where
  /-- A run of letters, digits and underscores: a mnemonic or a number. -/
  | word (cs : List Char)
  /-- A quoted character. -/
  | char (c : Byte)
  /-- A quoted string. -/
  | text (cs : List Byte)
  | comma
  | openList
  | closeList
  deriving DecidableEq, Repr

/-- Where in a line the reader stands. Words and strings read so far are held in reverse. -/
inductive AsmMode where
  | plain (pending : List Char)
  /-- After an opening quote. -/
  | quote
  /-- After an opening quote and a backslash. -/
  | quoteEscape
  /-- After a quoted character, before its closing quote. -/
  | quoteClose (c : Byte)
  /-- Inside a string. -/
  | text (read : List Byte)
  /-- Inside a string, after a backslash. -/
  | textEscape (read : List Byte)
  /-- After a semicolon: a comment to the end of the line. -/
  | comment
  deriving DecidableEq, Repr

/-- The 8-bit code of an ASCII character (R10); no code for any other. -/
def asciiCode (c : Char) : Option Byte := if c.toNat < 128 then some (BitVec.ofNat 8 c.toNat) else none

/-- The escapes for newline, carriage return, tab, form-feed, backspace and NUL (R81). -/
def escapeCode (c : Char) : Option Byte :=
  if c = 'n' then some 0x0A
  else if c = 'r' then some 0x0D
  else if c = 't' then some 0x09
  else if c = 'f' then some 0x0C
  else if c = 'b' then some 0x08
  else if c = '0' then some 0x00
  else none

/-- The characters of mnemonics and numbers. -/
def isWordChar (c : Char) : Bool := c.isAlpha || c.isDigit || c == '_'

/-- The tokens read so far, in reverse, with the pending word added, if there is one. -/
def endWord (pending : List Char) (ts : List AsmToken) : List AsmToken :=
  if pending.isEmpty then ts else .word pending.reverse :: ts

/-- One character outside quotes and comments. -/
def lexPlain (pending : List Char) (ts : List AsmToken) (c : Char) : Option (AsmMode × List AsmToken) :=
  if isWordChar c then some (.plain (c :: pending), ts)
  else if c = ' ' ∨ c = '\t' then some (.plain [], endWord pending ts)
  else if c = ',' then some (.plain [], .comma :: endWord pending ts)
  else if c = '[' then some (.plain [], .openList :: endWord pending ts)
  else if c = ']' then some (.plain [], .closeList :: endWord pending ts)
  else if c = ';' then some (.comment, endWord pending ts)
  else if c = '\'' then some (.quote, endWord pending ts)
  else if c = '"' then some (.text [], endWord pending ts)
  else none

/-- One character of a line. DESIGN CHOICE where R80 and R81 are silent (notes/assumptions/14.md): a backslash alone between two SINGLE quotes stands
for itself; in a string a backslash must begin an escape of R81, so one right before the closing double quote, like one before any other character,
makes the line wrong; a string ends at the next double quote that no backslash precedes. -/
def lexChar (at_ : AsmMode × List AsmToken) (c : Char) : Option (AsmMode × List AsmToken) :=
  match at_.1 with
  | .plain pending => lexPlain pending at_.2 c
  | .quote => if c = '\\' then some (.quoteEscape, at_.2) else (asciiCode c).map fun b => (.quoteClose b, at_.2)
  | .quoteEscape =>
    if c = '\'' then some (.plain [], .char 0x5C :: at_.2) else (escapeCode c).map fun b => (.quoteClose b, at_.2)
  | .quoteClose b => if c = '\'' then some (.plain [], .char b :: at_.2) else none
  | .text read =>
    if c = '"' then some (.plain [], .text read.reverse :: at_.2)
    else if c = '\\' then some (.textEscape read, at_.2)
    else (asciiCode c).map fun b => (.text (b :: read), at_.2)
  | .textEscape read => (escapeCode c).map fun b => (.text (b :: read), at_.2)
  | .comment => some at_

/-- The tokens of a line; none if a quote is left open or a character has no place in the line. -/
def lexLine (line : List Char) : Option (List AsmToken) :=
  match line.foldlM lexChar (.plain [], []) with
  | some (.plain pending, ts) => some (endWord pending ts).reverse
  | some (.comment, ts) => some ts.reverse
  | _ => none

/-- The value of a hexadecimal digit. -/
def hexDigit (c : Char) : Option Nat :=
  if c.isDigit then some (c.toNat - 48)
  else if 'A' ≤ c ∧ c ≤ 'F' then some (c.toNat - 55)
  else if 'a' ≤ c ∧ c ≤ 'f' then some (c.toNat - 87)
  else none

/-- The value of a decimal number. -/
def decimal (cs : List Char) : Option Nat :=
  cs.foldlM (fun v c => if c.isDigit then some (v * 10 + (c.toNat - 48)) else none) 0

/-- A byte operand: `0xNN`, a decimal number 0..255 or a quoted character (R80). -/
def byteOperand : AsmToken → Option Byte
  | .char b => some b
  | .word ['0', 'x', h, l] => (hexDigit h).bind fun a => (hexDigit l).map fun b => BitVec.ofNat 8 (a * 16 + b)
  | .word cs => (decimal cs).bind fun v => if v < 256 then some (BitVec.ofNat 8 v) else none
  | _ => none

/-- Byte operands separated by commas. -/
def byteOperands : List AsmToken → Option (List Byte)
  | [] => some []
  | [t] => (byteOperand t).map ([·])
  | t :: .comma :: u :: ts => (byteOperand t).bind fun b => (byteOperands (u :: ts)).map (b :: ·)
  | _ => none

/-- `ENC_GROUP cnt, b0, b1, b2`, with cnt in 1..3 (R80). DESIGN CHOICE (notes/assumptions/14.md): R80 defines only byte operands and gives cnt no form
of its own, so cnt may take any form of a byte operand (`2`, `0x02`, a quoted character) whose value is 1, 2 or 3. -/
def asmEncGroup (ops : List AsmToken) : Option (List Instr) :=
  match byteOperands ops with
  | some [n, b0, b1, b2] => if 1 ≤ n ∧ n ≤ 3 then some [.encGroup (n.setWidth 2) b0 b1 b2] else none
  | _ => none

/-- `ENC3 a, b, c`, `ENC2 a, b` and `ENC1 a`: one group of `count` bytes (R81). -/
def asmEnc (count : Nat) (ops : List AsmToken) : Option (List Instr) :=
  (byteOperands ops).bind fun bs => if bs.length = count then some (encodeCommands bs) else none

/-- `ENCODE [x_0, ...]` (R81). -/
def asmEncode : List AsmToken → Option (List Instr)
  | .openList :: ts =>
    match ts.reverse with
    | .closeList :: rs => (byteOperands rs.reverse).map encodeCommands
    | _ => none
  | _ => none

/-- A mnemonic without operands. -/
def asmBare (i : Instr) (ops : List AsmToken) : Option (List Instr) := if ops = [] then some [i] else none

/-- `DEC_CHAR c` (R80). -/
def asmDecChar (ops : List AsmToken) : Option (List Instr) :=
  match byteOperands ops with
  | some [c] => some [.decChar c]
  | _ => none

/-- A pseudo-command whose operand is one string (R81). -/
def asmText (expand : List Byte → List Instr) (ops : List AsmToken) : Option (List Instr) :=
  match ops with
  | [.text cs] => some (expand cs)
  | _ => none

/-- A mnemonic with its operands; mnemonics are upper case (R80, R81). -/
def asmStatement (m : List Char) (ops : List AsmToken) : Option (List Instr) :=
  if m = ['N', 'O', 'P'] then asmBare .nop ops
  else if m = ['E', 'N', 'C', '_', 'G', 'R', 'O', 'U', 'P'] then asmEncGroup ops
  else if m = ['D', 'E', 'C', '_', 'S', 'T', 'A', 'R', 'T'] then asmBare .decStart ops
  else if m = ['D', 'E', 'C', '_', 'C', 'H', 'A', 'R'] then asmDecChar ops
  else if m = ['D', 'E', 'C', '_', 'E', 'N', 'D'] then asmBare .decEnd ops
  else if m = ['Q', 'U', 'E', 'R', 'Y'] then asmBare .query ops
  else if m = ['E', 'N', 'C', '3'] then asmEnc 3 ops
  else if m = ['E', 'N', 'C', '2'] then asmEnc 2 ops
  else if m = ['E', 'N', 'C', '1'] then asmEnc 1 ops
  else if m = ['D', 'E', 'C', '_', 'S', 'T', 'R'] then asmText charCommands ops
  else if m = ['D', 'E', 'C', 'O', 'D', 'E'] then asmText decodeCommands ops
  else if m = ['E', 'N', 'C', 'O', 'D', 'E'] then asmEncode ops
  else none

/-- The commands of one line: one command or pseudo-command, with its operands, or nothing but a comment. -/
def assembleLine (line : List Char) : Option (List Instr) :=
  match lexLine line with
  | some [] => some []
  | some (.word m :: ops) => asmStatement m ops
  | _ => none

end Sys2Proof.Machine
end

