-- ==== Sys2Proof/Tests/Slice0.lean ====
section
/-!
SUPPORT. Tests. Every expected value is the spec's own: the tables of spec/30_encoding.md and 10_state.md, and the vectors of spec/95_test_vectors.md,
named in each docstring. The second half holds the witnesses: for every obligation with hypotheses, concrete values that meet them.
-/

open Sys2Proof Sys2Proof.Machine Sys2Proof.Stated

namespace Sys2Proof.Tests

/-- A chip with `NUL_TERMINATES` = `nul`, `RSP_LATENCY` = 1, `RSP_DEPTH` = 1 (R180's reference) and the registers `a`. -/
def chip (nul : Bool) (a : Arch) : State := { State.resetWith ⟨nul, 1, 1⟩ with arch := a }

/-- The next state, if there is one. -/
def next? : Host.Outcome State Fault Refusal → Option State
  | .next s => some s
  | .fault _ => none
  | .refused _ => none

/-- S' and the newest response of one step that runs the word `w`. -/
def runWord (s : State) (w : Nat) : Option (Arch × List Response) :=
  (next? (step (s.withFetchWord 32 w))).map fun t => (t.arch, t.inFlight.map InFlight.rsp)

/-- A DEC_CHAR-made accumulator: DEC_START, 'T', 'W' of L2.4's tables. -/
def twoPending : Arch := ⟨.active, 2, 19, 22, 0⟩

/-- A cycle that offers `w`; the host takes responses when `ready`. -/
def offering (w : Word) (ready : Bool) : Cycle := { Cycle.offer w with rspReady := ready }

/-- A cycle with `rst` = 1. -/
def rstCycle : Cycle := { Cycle.quiet none with rst := true }

/-- A cycle without a command in which the host takes the response offered. -/
def taking : Cycle := { Cycle.quiet none with rspReady := true }

/-- A response in flight that may be offered. -/
def nopAnswer : InFlight := ⟨⟨.ok, 0, 0⟩, 0⟩

/-! ## Well-formedness -/

/-- R72, R80: ENC_GROUP needs CNT in 1..3, so this term is refused. -/
theorem test_wellFormed_refuses_count_zero : ¬ (Instr.encGroup 0 0x4D 0x61 0x6E).WellFormed := by decide

theorem test_wellFormed_accepts_all_counts : ∀ cnt : BitVec 2, cnt ≠ 0 → (Instr.encGroup cnt 0x4D 0 0).WellFormed := by decide

/-! ## Words written out from R71 and R72: {OP, CNT, RSV, DATA} -/

theorem test_decode_nop : decode 0b0000_00_00_00000000_00000000_00000000 = .ok .nop := by decide
theorem test_decode_encGroup : decode 0b0001_10_00_01001101_01100001_11111111 = .ok (.encGroup 2 0x4D 0x61 0xFF) := by decide
theorem test_decode_decStart : decode 0b0010_00_00_00000000_00000000_00000000 = .ok .decStart := by decide
theorem test_decode_decChar : decode 0b0011_00_00_00000000_00000000_10000001 = .ok (.decChar 0x81) := by decide
theorem test_decode_decEnd : decode 0b0100_00_00_00000000_00000000_00000000 = .ok .decEnd := by decide
theorem test_decode_query : decode 0b0101_00_00_00000000_00000000_00000000 = .ok .query := by decide

/-- N2 to N16: the ILLEGAL words, each with the reason L2.4 gives. -/
theorem test_decode_illegal_words :
    decode 0x00000001 = .error .operandBits ∧ decode 0x01000000 = .error .reservedBits ∧
    decode 0x04000000 = .error .countOutsideEncGroup ∧ decode 0x24000000 = .error .countOutsideEncGroup ∧
    decode 0x30000141 = .error .charUpperBits ∧ decode 0x34000041 = .error .countOutsideEncGroup ∧
    decode 0x32000041 = .error .reservedBits ∧ decode 0x40000001 = .error .operandBits ∧
    decode 0x60000000 = .error .reservedOpcode ∧ decode 0xF0000000 = .error .reservedOpcode ∧
    decode 0x104D616E = .error .encGroupCountZero := by decide

theorem test_decodeTableWord : decodeTableWord 32 0x30000075 = some (.decChar 0x75) ∧ decodeTableWord 32 0x60000000 = none := by
  decide

/-! ## The commands -/

/-- N1. -/
theorem test_nop : runWord (chip false twoPending) 0x00000000 = some (twoPending, [⟨.ok, 0, 0⟩]) := by decide

/-- E12 crosses the boundaries of the I2C ROM. -/
theorem test_encGroup_rom_boundaries :
    runWord (chip false twoPending) 0x1C65ACF4 = some (twoPending, [⟨.ok, 4, 0x5A617A30⟩]) := by decide

/-- E6: CNT = 1 masks B1 and B2. -/
theorem test_encGroup_masks : runWord (chip false twoPending) 0x144DFFFF = some (twoPending, [⟨.ok, 4, 0x54513D3D⟩]) := by decide

/-- DV21 row 5: a restart in the middle of a group. -/
theorem test_decStart : runWord (chip false twoPending) 0x20000000 = some (⟨.active, 0, 0, 0, 0⟩, [⟨.ok, 0, 0⟩]) := by decide

/-- W6d row 4: the fourth index of "TWFu". -/
theorem test_decChar_completes :
    runWord (chip false ⟨.active, 3, 19, 22, 5⟩) 0x30000075 = some (⟨.active, 0, 0, 0, 0⟩, [⟨.ok, 3, 0x4D616E00⟩]) := by decide

/-- DV15 and DV16 row 3: 0x00 for both values of `NUL_TERMINATES`. -/
theorem test_decChar_nul :
    runWord (chip false ⟨.active, 2, 19, 16, 0⟩) 0x30000000 = some (⟨.fail, 0, 0, 0, 0⟩, [⟨.invalidChar, 0, 0⟩]) ∧
    runWord (chip true ⟨.active, 2, 19, 16, 0⟩) 0x30000000 = some (⟨.done, 0, 0, 0, 0⟩, [⟨.ok, 1, 0x4D000000⟩]) := by decide

/-- R125's example: "TWE" without padding. -/
theorem test_decEnd_flushes :
    runWord (chip false ⟨.active, 3, 19, 22, 4⟩) 0x40000000 = some (⟨.idle, 0, 0, 0, 0⟩, [⟨.ok, 2, 0x4D610000⟩]) := by decide

/-- DV22 rows 7 and 9: DEC_END in FAIL, and in IDLE. -/
theorem test_decEnd_verdicts :
    runWord (chip false ⟨.fail, 0, 0, 0, 0⟩) 0x40000000 = some (⟨.idle, 0, 0, 0, 0⟩, [⟨.invalidChar, 0, 0⟩]) ∧
    runWord (chip false ⟨.idle, 0, 0, 0, 0⟩) 0x40000000 = some (⟨.idle, 0, 0, 0, 0⟩, [⟨.notActive, 0, 0⟩]) := by decide

/-- Q6 and Q8. -/
theorem test_query :
    runWord (chip false ⟨.active, 3, 19, 22, 5⟩) 0x50000000 = some (⟨.active, 3, 19, 22, 5⟩, [⟨.ok, 0, 0x4D61400D⟩]) ∧
    runWord (chip true ⟨.active, 3, 63, 63, 63⟩) 0x50000000 = some (⟨.active, 3, 63, 63, 63⟩, [⟨.ok, 0, 0xFFFFC10D⟩]) := by decide

/-- N16: all ones. -/
theorem test_illegal : runWord (chip false twoPending) 0xFFFFFFFF = some (twoPending, [⟨.illegalCmd, 0, 0⟩]) := by decide

/-! ## The ports -/

/-- R53, at `RSP_DEPTH` = 1: with one response in flight `cmd_ready` is 0, and 1 again in the cycle in which that response is taken. -/
theorem test_cmdReady_frees_with_the_taken_response :
    State.cmdReady { chip false Arch.reset with inFlight := [nopAnswer] } (offering 0 false) = false ∧
    State.cmdReady { chip false Arch.reset with inFlight := [nopAnswer] } (offering 0 true) = true := by decide

/-- L2.5: reset in the middle of an operation, with a response in flight that is then lost (R171). -/
theorem test_reset_discards :
    (next? (step { chip true twoPending with inFlight := [nopAnswer], inputs := [rstCycle] })).map
      (fun t => (t.arch, t.inFlight, t.params.nulTerminates)) = some (⟨.idle, 0, 0, 0, 0⟩, [], true) := by decide

/-- R52, R55: two cycles of one offered word, the first stalled; it is accepted once, in the second. -/
theorem test_stalled_word_is_accepted_once :
    acceptedWords 2 { chip false Arch.reset with
      inputs := [{ offering 0x20000000 true with cmdStall := true }, offering 0x20000000 true] } = [0x20000000] := by decide

/-- R150's table of codes, each with its name. -/
theorem test_status_codes : [Status.ok, .ignored, .invalidChar, .illegalCmd, .notActive].map Status.code = [0, 1, 2, 3, 4] := by decide

/-- R76 and R150: the pins while INVALID_CHAR is offered. -/
theorem test_rspPins :
    State.rspPins { chip false Arch.reset with inFlight := [⟨⟨.invalidChar, 0, 0⟩, 0⟩] } taking = some (0, 0, 2) := by decide

/-! ## The host's level -/

/-- W6 and W5. -/
theorem test_host_vectors :
    hostEncode (chip false Arch.reset) [0x4D, 0x61] = [0x54, 0x57, 0x45, 0x3D] ∧
    hostDecode (chip false Arch.reset) [0x54, 0x57, 0x46, 0x75] = some [0x4D, 0x61, 0x6E] ∧
    hostDecode (chip false Arch.reset) [0x41, 0x42, 0x40, 0x3D] = none := by decide

/-- R126: "TR==" decodes to "M". -/
theorem test_discarded_bits : sourceDecode false [0x54, 0x52, 0x3D, 0x3D] = some [0x4D] := by decide

/-- The listings of P1, P2 and P6, and a comment. -/
theorem test_assembler :
    (assembleLine "ENC2 'y', '!' ; P1".toList).map (·.map encode) = some [0x18792100] ∧
    (assembleLine "DEC_CHAR '\\n'".toList).map (·.map encode) = some [0x3000000A] ∧
    (assembleLine "ENC3 0xFB, 0xFF, 191".toList).map (·.map encode) = some [0x1CFBFFBF] ∧
    (assembleLine "DECODE \"T\"".toList).map (·.map encode) = some [0x20000000, 0x30000054, 0x40000000] := by decide

/-- R80: cnt in 1..3, and upper-case mnemonics; and a backslash that begins no escape (log 14). -/
theorem test_assembler_refuses :
    assembleLine "ENC_GROUP 0, 1, 2, 3".toList = none ∧ assembleLine "nop".toList = none ∧
    assembleLine "DEC_STR \"a\\\"".toList = none := by decide

/-! ## Witnesses: reset and the channels -/

/-- A failed operation with a response in flight, and a reset to come. -/
theorem wit_ResetStateHasTheValuesOfTheSpec : ∃ (s : State) (c : Cycle) (rest : List Cycle),
    s.inputs = c :: rest ∧ c.rst = true ∧ s.arch ≠ State.reset.arch :=
  ⟨{ chip false ⟨.fail, 0, 0, 0, 0⟩ with inputs := [rstCycle] }, rstCycle, [], rfl, rfl, by decide⟩

theorem wit_ResetEdgesLeaveResetStateAndNoResponse :
    (∃ (s : State) (cs rest : List Cycle), cs ≠ [] ∧ (∀ c ∈ cs, c.rst = true) ∧ s.inputs = cs ++ rest ∧ s.wasReset = false) ∧
    (∃ s t : State, s.inFlight = [] ∧ step s = .next t ∧ s.acceptedWord = none) :=
  ⟨⟨{ chip false twoPending with wasReset := false, inputs := [rstCycle, rstCycle] }, [rstCycle, rstCycle], [], by decide, by decide, rfl, rfl⟩,
    chip false twoPending, _, rfl, rfl, rfl⟩

theorem wit_BeforeFirstResetTheMachineIsStuck : ∃ s : State, s.wasReset = false ∧ s.nextCycle.rst = false :=
  ⟨{ chip false twoPending with wasReset := false }, rfl, rfl⟩

/-- An accepted word, a word that is not accepted, and a held word that is dropped, and one that is changed. -/
theorem wit_CommandIsAcceptedExactlyByTheHandshake :
    (∃ (s : State) (w : Word), s.wasReset = true ∧ s.breaksHandshake s.nextCycle = false ∧ s.acceptedWord = some w) ∧
    (∃ s : State, s.wasReset = true ∧ s.breaksHandshake s.nextCycle = false ∧ s.nextCycle.rst = false ∧ s.nextCycle.cmdValid = true ∧
      s.acceptedWord = none) ∧
    (∃ (s : State) (w : Word), s.wasReset = true ∧ s.cmdHeld = some w ∧ s.nextCycle.rst = false ∧ s.nextCycle.cmdValid = false) ∧
    (∃ (s : State) (w : Word), s.wasReset = true ∧ s.cmdHeld = some w ∧ s.nextCycle.rst = false ∧ s.nextCycle.cmdData ≠ w) :=
  ⟨⟨{ chip false Arch.reset with inputs := [offering 0x20000000 false] }, 0x20000000, by decide⟩,
    ⟨{ chip false Arch.reset with inFlight := [nopAnswer], inputs := [offering 0x20000000 false] }, by decide⟩,
    ⟨{ chip false Arch.reset with cmdHeld := some 0, inputs := [taking] }, 0, by decide⟩,
    ⟨{ chip false Arch.reset with cmdHeld := some 0, inputs := [offering 0x20000000 false] }, 0, by decide⟩⟩

/-- A full buffer whose response is not taken; a step; and a run in which the host never takes a response. -/
theorem wit_FullResponseBufferStopsTheCommandChannel :
    (∃ (s : State) (c : Cycle), s.params.rspDepth < s.inFlight.length - (if s.rspValid c = true ∧ c.rspReady = true then 1 else 0) + 1 ∧
      c.rst = false) ∧
    (∃ s t : State, step s = .next t ∧ s.nextCycle.rst = false) ∧
    (∃ s t : State, s.params.rspDepth ≤ s.inFlight.length ∧ (∀ c ∈ s.inputs, c.rst = false ∧ c.rspReady = false) ∧
      s.inputs ≠ [] ∧ runCycles 2 s = .next t) :=
  ⟨⟨{ chip false Arch.reset with inFlight := [nopAnswer] }, offering 0 false, by decide⟩,
    ⟨{ chip false Arch.reset with inputs := [offering 0 false] }, _, rfl, rfl⟩,
    ⟨{ chip false Arch.reset with inFlight := [nopAnswer], inputs := [offering 0 false] }, _, by decide, by decide, by decide, rfl⟩⟩

/-- An offered response that is taken; one that is not; and an acceptance at `RSP_LATENCY` = 2 with one cycle after it. -/
theorem wit_OfferedResponseStaysUntilTaken :
    (∃ (s t : State) (r : Response), step s = .next t ∧ s.nextCycle.rst = false ∧ s.offered s.nextCycle = some r ∧
      s.nextCycle.rspReady = true) ∧
    (∃ (s t : State) (r : Response), step s = .next t ∧ s.nextCycle.rst = false ∧ s.offered s.nextCycle = some r ∧
      s.nextCycle.rspReady = false) ∧
    (∃ (s u : State) (w : Word), s.acceptedWord = some w ∧ 1 < s.params.rspLatency ∧ NoReset 1 s ∧ runCycles 1 s = .next u) :=
  ⟨⟨{ chip false Arch.reset with inFlight := [nopAnswer], inputs := [taking] }, _, _, rfl, rfl, rfl, rfl⟩,
    ⟨{ chip false Arch.reset with inFlight := [nopAnswer] }, _, _, rfl, rfl, rfl, rfl⟩,
    ⟨{ State.resetWith ⟨false, 2, 1⟩ with inputs := [offering 0x50000000 true] }, _, 0x50000000, by decide, by decide,
      by simp [NoReset, offering, Cycle.offer, Cycle.quiet], rfl⟩⟩

theorem wit_ChannelsCarryTheCommandFunction : ∃ s t : State, runCycles 2 s = .next t ∧ NoReset 2 s ∧ acceptedWords 2 s ≠ [] :=
  ⟨{ chip false Arch.reset with inputs := [offering 0x20000000 true, offering 0x30000041 true] }, _, rfl,
    by simp [NoReset, offering, Cycle.offer, Cycle.quiet], by decide⟩

theorem wit_StepRunsTheDecodedCommand : ∃ (s : State) (i : Instr), s.wasReset = true ∧ s.breaksHandshake s.nextCycle = false ∧
    s.nextCycle.rst = false ∧ s.nextCycle.cmdValid = true ∧ s.cmdReady s.nextCycle = true ∧ decode s.nextCycle.cmdData = .ok i :=
  ⟨{ chip false Arch.reset with inFlight := [nopAnswer], cmdHeld := some 0x30000041, inputs := [offering 0x30000041 true] },
    .decChar 0x41, by decide⟩

theorem wit_OfferedWordRunsInAnEmptyChannel : ∃ (s : State) (c : Cycle) (rest : List Cycle) (i : Instr), s.wasReset = true ∧
    s.inFlight = [] ∧ s.cmdHeld = none ∧ s.inputs = c :: rest ∧ c.rst = false ∧ c.cmdValid = true ∧ c.cmdStall = false ∧
    1 ≤ s.params.rspDepth ∧ decode c.cmdData = .ok i :=
  ⟨{ chip false twoPending with inputs := [offering 0x40000000 false] }, offering 0x40000000 false, [], .decEnd, by decide⟩

/-- The invariant holds of a chip after reset with one answered NOP in flight. -/
theorem chip_inv : State.Inv { chip false Arch.reset with inFlight := [nopAnswer], inputs := [taking] } where
  params_ok := by decide
  arch_ok := fun _ => ⟨fun _ => rfl, fun _ => rfl, fun _ => rfl, fun _ => rfl⟩
  channel_ok := fun _ => {
    depth_le := by decide
    wait_le := by decide
    in_order := by simp
    raised_ready := nofun
    responses_ok := by
      intro e he
      obtain rfl : e = nopAnswer := by simpa using he
      exact ⟨by decide, by decide, by decide⟩
    taken_ok := by intro r hr; cases hr }

theorem wit_FairCyclesDeliverEveryResponse : ∃ (n : Nat) (s t : State), s.Inv ∧ s.wasReset = true ∧ (∀ c ∈ s.inputs.take n, FairCycle c) ∧
    n ≤ s.inputs.length ∧ s.params.rspLatency - 1 + s.inFlight.length ≤ n ∧ s.params.rspLatency ≤ s.inputs.length ∧
    n = s.params.rspLatency ∧ runCycles n s = .next t ∧ s.inFlight ≠ [] :=
  ⟨1, _, _, chip_inv, rfl, by simp [FairCycle, taking, Cycle.quiet], by decide, by decide, by decide, rfl, rfl, by decide⟩

/-- The cycles of a host that always takes responses, with a B64DP that holds back and stalls in every second cycle: weakly fair, but not fair
in every cycle. -/
def slowEnv (n : Nat) : Cycle := { taking with rspHold := n % 2 == 0, cmdStall := n % 2 == 0 }

/-- A response in flight until cycle 1, in which it is taken. -/
def slowRun (n : Nat) : State :=
  match n with
  | 0 => { chip false Arch.reset with inFlight := [nopAnswer] }
  | 1 => { chip false Arch.reset with inFlight := [nopAnswer] }
  | _ + 2 => { chip false Arch.reset with taken := [⟨.ok, 0, 0⟩] }

theorem slowEnv_odd (n : Nat) : (slowEnv (2 * n + 1)).rspHold = false ∧ (slowEnv (2 * n + 1)).cmdStall = false := by
  simp [slowEnv]

theorem slowRun_isRun : HardwareRun slowEnv slowRun where
  steps := fun n =>
    match n with
    | 0 => rfl
    | 1 => rfl
    | _ + 2 => rfl
  offers := fun n _ => ⟨2 * n + 1, by omega, (slowEnv_odd n).1⟩
  accepts := fun n _ => ⟨2 * n + 1, by omega, (slowEnv_odd n).2⟩

/-- The last clause: a run without end, with a response in flight at its start, in which B64DP stalls for ever again. -/
theorem wit_FairCyclesDeliverEveryResponse_run : ∃ (env : Nat → Cycle) (run : Nat → State), HardwareRun env run ∧
    (run 0).params.WellFormed ∧ (∀ n, (env n).rst = false ∧ (env n).rspReady = true) ∧ (run 0).responses[0]? = some ⟨.ok, 0, 0⟩ ∧
    (run 0).taken.length ≤ 0 ∧ (env 0).rspHold = true :=
  ⟨slowEnv, slowRun, slowRun_isRun, by decide, fun _ => ⟨rfl, rfl⟩, rfl, by decide, rfl⟩

theorem wit_RegistersHoldWhileNoCommandIsOffered : ∃ s : State, s.wasReset = true ∧ s.cmdHeld = none ∧ s.arch.n = 2 ∧
    ∀ c ∈ s.inputs, c.rst = false ∧ c.cmdValid = false :=
  ⟨{ chip false twoPending with inputs := [taking] }, rfl, rfl, rfl, by decide⟩

/-- One quiet cycle, then a reset and the first command of the next run. -/
theorem wit_EndedRunKeepsItsResponsesAndRegisters : ∃ s : State, s.runOver = true ∧ NoReset 1 s ∧ s.taken ≠ [] ∧
    s.inputs = [taking, rstCycle, offering 0x20000000 true] :=
  ⟨{ chip false twoPending with taken := [⟨.ok, 0, 0⟩], inputs := [taking, rstCycle, offering 0x20000000 true] }, by decide,
    by simp [NoReset, taking, Cycle.quiet], by decide, rfl⟩

theorem wit_ClassificationNeverChanges : ∃ s t : State, runCycles 1 s = .next t :=
  ⟨{ chip true twoPending with inputs := [rstCycle] }, _, rfl⟩

/-! ## Witnesses: encoding -/

theorem wit_DecodeOfEncodeIsTheCommand : (Instr.encGroup 1 0xFF 0xFF 0xFF).WellFormed ∧ (Instr.decChar 0xFF).WellFormed ∧
    Instr.nop.WellFormed ∧ Instr.decStart.WellFormed ∧ Instr.decEnd.WellFormed ∧ Instr.query.WellFormed := by decide

theorem wit_EncodeOfDecodeIsTheWord : decode 0x1FFFFFFF = .error .reservedBits ∧ decode 0x1CFFFFFF = .ok (.encGroup 3 0xFF 0xFF 0xFF) := by
  decide

/-- The first reserved opcode and the last one in use. -/
theorem wit_OpcodeMapIsTheTable : 6 ≤ (0x60000000 : Word).toNat / 2 ^ 28 ∧ ¬ 6 ≤ (0x5FFFFFFF : Word).toNat / 2 ^ 28 := by decide

theorem wit_IllegalWordIsAnsweredAndChangesNothing : ∃ (s : State) (w : Word) (e : IllegalReason),
    decode w = .error e ∧ s.acceptedWord = some w :=
  ⟨{ chip false twoPending with inputs := [offering 0x60000000 false] }, 0x60000000, .reservedOpcode, by decide⟩

theorem wit_EveryWordHasOneDefinedOutcome : ∃ (s : State) (w : Word), s.acceptedWord = some w :=
  ⟨{ chip false twoPending with inputs := [offering 0xFFFFFFFF false] }, 0xFFFFFFFF, by decide⟩

/-! ## Witnesses: all commands -/

/-- The clause of ResponseRangesByCommand about the pins: a response that is offered. -/
theorem wit_ResponseRangesByCommand : ∃ (s : State) (c : Cycle) (r : Response), s.offered c = some r ∧ r.rst = .notActive :=
  ⟨{ chip false Arch.reset with inFlight := [⟨⟨.notActive, 0, 0⟩, 0⟩] }, taking, _, rfl, rfl⟩

/-- Responses with each of the four statuses that R155 and R158 speak of, and a step out of FAIL for each of its three ways. -/
theorem wit_StatusesArePreciseAndFailIsTheOnlyRecord :
    (∃ s : State, ∃ w : Word, Responds s w ⟨.illegalCmd, 0, 0⟩) ∧ (∃ s : State, ∃ w : Word, Responds s w ⟨.notActive, 0, 0⟩) ∧
    (∃ s : State, ∃ w : Word, Responds s w ⟨.ignored, 0, 0⟩) ∧ (∃ s : State, ∃ w : Word, Responds s w ⟨.invalidChar, 0, 0⟩) ∧
    (∀ c ∈ [rstCycle, offering 0x20000000 false, offering 0x40000000 false], ∃ s t : State, s.inputs = [c] ∧ s.arch.dstate = .fail ∧
      step s = .next t ∧ t.arch.dstate ≠ .fail) := by
  refine ⟨⟨chip false twoPending, 0x60000000, by unfold Responds; decide⟩, ⟨chip false Arch.reset, 0x40000000, by unfold Responds; decide⟩,
    ⟨chip false ⟨.done, 0, 0, 0, 0⟩, 0x30000041, by unfold Responds; decide⟩,
    ⟨chip false ⟨.fail, 0, 0, 0, 0⟩, 0x40000000, by unfold Responds; decide⟩, ?_⟩
  intro c hc
  refine ⟨{ chip false ⟨.fail, 0, 0, 0, 0⟩ with inputs := [c] }, ?_⟩
  simp only [List.mem_cons, List.not_mem_nil, or_false] at hc
  rcases hc with rfl | rfl | rfl <;> exact ⟨_, rfl, rfl, rfl, by decide⟩

theorem wit_NopDoesNothing : (0x0FFFFFFF : Word).toNat < 2 ^ 28 ∧ (0x0FFFFFFF : Word) ≠ 0 := by decide

/-! ## Witnesses: the encoder and the data path -/

/-- The three counts of EncGroupGivesTheSourcesCharacters, EncGroupPadsExactlyTheUnusedLanes and EncGroupIsInjectiveOnTheRealBytes. -/
theorem wit_EncGroup_counts : (1 : BitVec 2) ≠ 0 ∧ (2 : BitVec 2) ≠ 0 ∧ (3 : BitVec 2) ≠ 0 := by decide

/-- The two ways in which a word with OP = 0x1 is no ENC_GROUP. -/
theorem wit_EncGroupGivesTheSourcesCharacters : (0x10000000 : Word).toNat / 2 ^ 28 = 1 ∧ (0x10000000 : Word).extractLsb' 26 2 = 0 ∧
    (0x1DFFFFFF : Word).toNat / 2 ^ 28 = 1 ∧ (0x1DFFFFFF : Word).extractLsb' 24 2 ≠ 0 := by decide

theorem wit_ShifterSlotsMakeUpTheGroup : (0 : Fin 4) ≠ 3 := by decide

/-- The smallest and the largest byte count of FlushCountsAndEmittedLanes. -/
theorem wit_FlushCountsAndEmittedLanes : (0 : Nat) ≤ 3 ∧ (3 : Nat) ≤ 3 := by decide

theorem wit_RomsAreInverseOnTheAlphabet : (c2i false 0x2F).cls = .alpha ∧ (c2i true 0x41).cls = .alpha := by decide

/-! ## Witnesses: the decoder -/

theorem wit_DecCharOutsideActiveChangesNothing : (chip false Arch.reset).arch.dstate = .idle ∧
    (chip false ⟨.done, 0, 0, 0, 0⟩).arch.dstate = .done ∧ (chip false ⟨.fail, 0, 0, 0, 0⟩).arch.dstate = .fail := by decide

theorem wit_DecCharOfTheAlphabetFillsOrCompletes : ∀ n : BitVec 2, (chip true ⟨.active, n, 0, 0, 0⟩).arch.dstate = .active ∧
    c2i (chip true ⟨.active, n, 0, 0, 0⟩).params.nulTerminates 0x2F = ⟨.alpha, 63⟩ ∧ (chip true ⟨.active, n, 0, 0, 0⟩).arch.n = n := by decide

/-- DecCharOfWhitespaceIsSkipped, DecCharOfPaddingFlushesAndEnds (its second clause needs DONE, as above) and
DecCharOfNulFollowsTheParameter. -/
theorem wit_DecChar_active : (chip true twoPending).arch.dstate = .active ∧ (chip true twoPending).params.nulTerminates = true ∧
    (chip false twoPending).arch.dstate = .active ∧ (chip false twoPending).params.nulTerminates = false ∧
    (0x20 : Byte) ∈ ([0x08, 0x09, 0x0A, 0x0C, 0x0D, 0x20] : List Byte) := by decide

theorem wit_DecCharInvalidFailsTheOperation : (chip false ⟨.fail, 0, 0, 0, 0⟩).arch.dstate = .fail ∧ (chip false twoPending).arch.dstate = .active ∧
    (c2i (chip false twoPending).params.nulTerminates 0x40).cls = .invalid ∧ 0x80 ≤ (0x80 : Byte).toNat ∧ 0x80 ≤ (0xFF : Byte).toNat := by
  decide

/-- DecEndClosesTheOperation and DecodeStateMachineIsTheTable. -/
theorem wit_DecEnd_states : ∀ d : DState, d = .idle ∨ d = .active ∨ d = .done ∨ d = .fail →
    (chip false ⟨d, 0, 0, 0, 0⟩).arch.dstate = d := fun _ _ => rfl

/-- The registers' invariant holds in each DSTATE. -/
theorem wit_DecEndClosesTheOperation : (chip false twoPending).arch.Inv ∧ ∀ d : DState, (chip false ⟨d, 0, 0, 0, 0⟩).arch.Inv :=
  ⟨⟨by decide, by decide, fun _ => rfl, by decide⟩, fun _ => ⟨fun _ => rfl, fun _ => rfl, fun _ => rfl, fun _ => rfl⟩⟩

/-- Every class of DecodeStateMachineIsTheTable has a character. -/
theorem wit_DecodeStateMachineIsTheTable : (c2i true 0x41).cls = .alpha ∧ (c2i true 0x0D).cls = .ws ∧ (c2i true 0x3D).cls = .pad ∧
    (c2i true 0x00).cls = .term ∧ (c2i true 0x0B).cls = .invalid ∧ decode 0x60000000 = .error .reservedOpcode := by decide

theorem wit_OnlyCompletionsAndTerminatorsYieldBytes :
    responsesTo (chip false ⟨.active, 3, 19, 22, 5⟩) [.decChar 0x75] = [⟨.ok, 3, 0x4D616E00⟩] ∧
    responsesTo (chip false ⟨.active, 3, 19, 22, 4⟩) [.decEnd] = [⟨.ok, 2, 0x4D610000⟩] ∧
    responsesTo (chip false twoPending) [.decStart] = [⟨.ok, 0, 0⟩] := by decide

/-- 'Q' and 'R' differ in the low 4 bits alone, 'E' and 'F' in the low 2 (R126's examples). -/
theorem wit_DiscardedLowBitsAreNotChecked : (16 : Index).toNat / 16 = (17 : Index).toNat / 16 ∧
    (4 : Index).toNat / 4 = (5 : Index).toNat / 4 := by decide

/-- N lowered (a terminator with two pending) and N raised (an alphabet character at N = 0). -/
theorem wit_PositionsBeyondTheCountStayZero :
    (∃ s t : State, s.arch.Inv ∧ exec .decEnd s = .next t ∧ t.arch.n.toNat < s.arch.n.toNat) ∧
    (∃ s t : State, s.arch.Inv ∧ exec (.decChar 0x41) s = .next t ∧ s.arch.n.toNat < t.arch.n.toNat) :=
  ⟨⟨chip false twoPending, _, ⟨by decide, by decide, fun _ => rfl, by decide⟩, rfl, by decide⟩,
    ⟨chip false ⟨.active, 0, 0, 0, 0⟩, _, ⟨fun _ => rfl, fun _ => rfl, fun _ => rfl, fun _ => rfl⟩, rfl, by decide⟩⟩

/-! ## Witnesses: the invariant and the host's level -/

theorem wit_InvariantHoldsAfterReset : Params.WellFormed ⟨true, 1, 1⟩ := by decide

theorem wit_StepKeepsTheMachineInvariant : ∃ s t : State, s.Inv ∧ step s = .next t := ⟨_, _, chip_inv, rfl⟩

/-- HostDecodeIsTheSourcesDecode: a text that decodes ("TWE=") and one that fails. -/
theorem wit_HostDecodeIsTheSourcesDecode : hostDecode (chip true twoPending) [0x54, 0x57, 0x45, 0x3D] = some [0x4D, 0x61] ∧
    (0x40 : Byte) ∈ beforeTerminator false [0x41, 0x40, 0x3D] ∧ (c2i false 0x40).cls = .invalid := by decide

theorem wit_StoppingAfterATerminatorOrAFailureKeepsTheResult : (c2i (chip false twoPending).params.nulTerminates 0x3D).cls = .pad ∧
    (c2i (chip true twoPending).params.nulTerminates 0x00).cls = .term ∧ (c2i (chip true twoPending).params.nulTerminates 0x21).cls = .invalid := by
  decide

/-- VerdictOfAnOperationComesAtItsEnd: an operation that reports no failure, and one that does. -/
theorem wit_VerdictOfAnOperationComesAtItsEnd :
    responsesTo (chip false Arch.reset) (decodeCommands []) = [⟨.ok, 0, 0⟩, ⟨.ok, 0, 0⟩] ∧
    responsesTo (chip false Arch.reset) (decodeCommands [0x40]) =
      [⟨.ok, 0, 0⟩, ⟨.invalidChar, 0, 0⟩, ⟨.invalidChar, 0, 0⟩] := by decide

end Sys2Proof.Tests
end

section
/-!
PROOFS. The family of spec/10_state.md: the two ROMs (R24 to R28), reset and the machine before it (R34, R35), and the registers' invariant under
every command (R22, R30).
-/

namespace Sys2Proof.Proofs

open Sys2Proof Sys2Proof.Machine Sys2Proof.Stated Sys2Proof.Laws

/-! ## The ROMs

A fact about the contents of a ROM is a comparison of two finite tables, one entry at a time: 64 entries of the I2C ROM, or 256 of the C2I ROM for
each value of `NUL_TERMINATES`. What follows from such a fact is derived from it. -/

/-- The C2I ROM reads back what the I2C ROM writes: the alphabet's side of R28. -/
theorem c2i_i2c (nul : Bool) (i : Index) : c2i nul (i2c i) = ⟨.alpha, i⟩ := by
  revert nul i; decide

/-- The I2C ROM gives back every character that the C2I ROM classes ALPHA: the characters' side of R28. -/
theorem i2c_index_of_alpha (nul : Bool) (c : Byte) : (c2i nul c).cls = .alpha → i2c (c2i nul c).index = c := by
  revert nul c; decide

theorem i2c_injective : Function.Injective i2c := fun i j h => by
  have he : c2i false (i2c i) = c2i false (i2c j) := congrArg (c2i false) h
  rw [c2i_i2c, c2i_i2c] at he
  exact congrArg C2IEntry.index he

theorem i2c_toNat (i : Index) : (i2c i).toNat = alphabet.getD i.toNat 0 := by
  revert i; decide

/-- Every entry of the alphabet lies between '+' and 'z' (R25). -/
theorem i2c_range (i : Index) : 0x2B ≤ (i2c i).toNat ∧ (i2c i).toNat ≤ 0x7A := by
  revert i; decide

theorem c2i_cls_of_isSpaceCode (nul : Bool) {c : Byte} (h : isSpaceCode c = true) : (c2i nul c).cls = .ws := by
  simp only [isSpaceCode, Bool.or_eq_true, beq_iff_eq, or_assoc] at h
  rcases h with rfl | rfl | rfl | rfl | rfl | rfl <;> rfl

theorem c2i_cls_padChar (nul : Bool) : (c2i nul padChar).cls = .pad := rfl

/-- No entry of the I2C ROM is the padding character, since the two are of different classes. -/
theorem i2c_ne_padChar (i : Index) : i2c i ≠ padChar := fun h => by
  have hcls := c2i_cls_padChar false
  rw [← h, c2i_i2c] at hcls
  cases hcls

/-- No entry of the I2C ROM is whitespace, since the two are of different classes. -/
theorem isSpaceCode_i2c (i : Index) : isSpaceCode (i2c i) = false := Bool.eq_false_iff.2 fun h => by
  have hcls := c2i_cls_of_isSpaceCode false h
  rw [c2i_i2c] at hcls
  cases hcls

/-- Settles O36: the order and the range entry by entry, the rest from the class of the entries. -/
theorem indexRomIsTheAlphabet : Obligations.IndexRomIsTheAlphabet := by
  refine ⟨i2c_toNat, fun _ _ h => i2c_injective h, fun i => ?_⟩
  obtain ⟨hlo, hhi⟩ := i2c_range i
  exact ⟨hlo, hhi, i2c_ne_padChar i, isSpaceCode_i2c i⟩

/-- Settles O37, entry by entry of the printed map. -/
theorem characterRomIsThePrintedMap : Obligations.CharacterRomIsThePrintedMap := by
  unfold Obligations.CharacterRomIsThePrintedMap
  decide

theorem count_alpha_codes (nul : Bool) :
    ((List.range 256).filter fun n => (c2i nul (BitVec.ofNat 8 n)).cls == .alpha).length = 64 := by
  revert nul; decide

/-- Settles O38. -/
theorem romsAreInverseOnTheAlphabet : Obligations.RomsAreInverseOnTheAlphabet := fun nul =>
  ⟨c2i_i2c nul, i2c_index_of_alpha nul, count_alpha_codes nul⟩

/-! ## Reset, and the machine before it -/

theorem nextCycle_of_inputs {s : State} {c : Cycle} {rest : List Cycle} (h : s.inputs = c :: rest) : s.nextCycle = c := by
  simp [State.nextCycle, h]

/-- An edge with `rst` = 1 has a next state, from every state (R170). -/
theorem step_of_rst {s : State} (h : s.nextCycle.rst = true) :
    step s = .next { State.resetWith s.params with inputs := s.inputs.tail } := by
  simp [step, edge_eq, h]

/-- Settles O1. -/
theorem resetStateHasTheValuesOfTheSpec : Obligations.ResetStateHasTheValuesOfTheSpec := by
  refine ⟨rfl, rfl, rfl, rfl, rfl, rfl, fun s c rest hin hrst => ?_⟩
  have hedge : s.nextCycle.rst = true := by rw [nextCycle_of_inputs hin, hrst]
  exact ⟨_, step_of_rst hedge, rfl, rfl, rfl, fun _ => rfl⟩

theorem edge_of_not_wasReset {s : State} (hw : s.wasReset = false) (hr : s.nextCycle.rst = false) : s.edge = .notReset := by
  simp [edge_eq, hw, hr]

/-- Settles O3. -/
theorem beforeFirstResetTheMachineIsStuck : Obligations.BeforeFirstResetTheMachineIsStuck := fun s hw hr => by
  have he := edge_of_not_wasReset hw hr
  simp [step, State.acceptedWord, he]

/-! ## The registers under a command -/

/-- Clearing the accumulator is the transition that keeps DSTATE. -/
theorem cleared_eq_moved (S : Arch) : S.cleared = S.moved S.dstate := rfl

/-- The registers that an alphabet character leaves: the group is complete, or its index is pushed. -/
theorem alpha_arch_cases (idx : Index) (S : Arch) :
    (S.n = 3 ∧ (S.alpha idx).1 = S.moved S.dstate) ∨ (S.n ≠ 3 ∧ (S.alpha idx).1 = S.pushed idx) := by
  by_cases hn : S.n = 3
  · exact .inl ⟨hn, by simp [Arch.alpha, hn, cleared_eq_moved]⟩
  · exact .inr ⟨hn, by rw [Arch.alpha, if_neg hn]⟩

/-- The four things a command can do to the registers: nothing; a transition that clears the accumulator; one index more in ACTIVE; closing an
operation that has already ended (R22, R30). -/
theorem effect_arch_cases (p : Params) (S : Arch) (i : Instr) :
    (effect p S i).1 = S ∨ (∃ d, (effect p S i).1 = S.moved d) ∨
    (S.dstate = .active ∧ S.n ≠ 3 ∧ ∃ idx, (effect p S i).1 = S.pushed idx) ∨
    (S.dstate ≠ .active ∧ (effect p S i).1 = { S with dstate := .idle }) := by
  cases i with
  | nop => exact .inl rfl
  | encGroup cnt b0 b1 b2 =>
    refine .inl ?_
    simp only [effect]
    split_ifs <;> rfl
  | decStart => exact .inr (.inl ⟨_, rfl⟩)
  | decChar c =>
    cases hd : S.dstate with
    | idle | done | fail => exact .inl (by simp [effect, hd])
    | active =>
      have he : effect p S (.decChar c) = S.scanned p.nulTerminates c := by simp [effect, hd]
      rw [he]
      rcases scanned_cases p.nulTerminates c S with ⟨-, h⟩ | ⟨-, h⟩ | ⟨-, h⟩ | ⟨-, h⟩ <;> rw [h]
      · rcases alpha_arch_cases (c2i p.nulTerminates c).index S with ⟨-, ha⟩ | ⟨hn, ha⟩
        · exact .inr (.inl ⟨_, ha⟩)
        · exact .inr (.inr (.inl ⟨rfl, hn, _, ha⟩))
      · exact .inl rfl
      · exact .inr (.inl ⟨_, rfl⟩)
      · exact .inr (.inl ⟨_, rfl⟩)
  | decEnd =>
    cases hd : S.dstate with
    | idle => exact .inl (by simp [effect, hd])
    | active => exact .inr (.inl ⟨.idle, by simp [effect, hd, Arch.terminated]⟩)
    | done | fail => exact .inr (.inr (.inr ⟨by simp, by simp [effect, hd]⟩))
  | query => exact .inl rfl

/-- Closing an operation that is not ACTIVE keeps the registers' invariant. -/
theorem closed_inv {S : Arch} (h : S.Inv) (hd : S.dstate ≠ .active) : Arch.Inv { S with dstate := .idle } where
  t0_zero := h.t0_zero
  t1_zero := h.t1_zero
  t2_zero := h.t2_zero
  idle_empty _ := h.idle_empty hd

/-- Every command keeps the registers' invariant. -/
theorem effect_inv (p : Params) {S : Arch} (h : S.Inv) (i : Instr) : (effect p S i).1.Inv := by
  rcases effect_arch_cases p S i with e | ⟨d, e⟩ | ⟨hd, hn, idx, e⟩ | ⟨hd, e⟩ <;> rw [e]
  · exact h
  · exact moved_inv d S
  · exact pushed_inv idx h hd hn
  · exact closed_inv h hd

/-- What R22 says of the count and the positions that a command leaves: N is lowered only together with a clearing, and raised only by 1, with
nothing written but the position that is filled. -/
structure CountDiscipline (S S' : Arch) : Prop where
  lowered : S'.n.toNat < S.n.toNat → S'.n = 0 ∧ S'.t0 = 0 ∧ S'.t1 = 0 ∧ S'.t2 = 0
  raised : S.n.toNat < S'.n.toNat → S'.n.toNat = S.n.toNat + 1 ∧
    (S.n ≠ 0 → S'.t0 = S.t0) ∧ (S.n ≠ 1 → S'.t1 = S.t1) ∧ (S.n ≠ 2 → S'.t2 = S.t2)

theorem CountDiscipline.of_n_eq {S S' : Arch} (h : S'.n = S.n) : CountDiscipline S S' where
  lowered hlt := absurd hlt (by simp [h])
  raised hlt := absurd hlt (by simp [h])

theorem CountDiscipline.moved (d : DState) (S : Arch) : CountDiscipline S (S.moved d) where
  lowered _ := ⟨rfl, rfl, rfl, rfl⟩
  raised hlt := absurd hlt (by simp)

theorem CountDiscipline.pushed (idx : Index) {S : Arch} (hn : S.n ≠ 3) : CountDiscipline S (S.pushed idx) := by
  rcases count_cases S.n with e | e | e | e
  · constructor <;> simp [Arch.pushed, e]
  · constructor <;> simp [Arch.pushed, e]
  · constructor <;> simp [Arch.pushed, e]
  · exact absurd e hn

theorem effect_countDiscipline (p : Params) (S : Arch) (i : Instr) : CountDiscipline S (effect p S i).1 := by
  rcases effect_arch_cases p S i with e | ⟨d, e⟩ | ⟨-, hn, idx, e⟩ | ⟨-, e⟩ <;> rw [e]
  · exact .of_n_eq rfl
  · exact .moved d S
  · exact .pushed idx hn
  · exact .of_n_eq rfl

/-- Settles O50: every command's effect on the registers is one of four, and each keeps the invariant and R22's account of N. -/
theorem positionsBeyondTheCountStayZero : Obligations.PositionsBeyondTheCountStayZero := by
  refine ⟨reset_inv, fun i s t hs ht => ?_⟩
  rw [exec_eq] at ht
  cases ht
  obtain ⟨hlow, hraise⟩ := effect_countDiscipline s.params s.arch i
  exact ⟨effect_inv s.params hs i, hlow, hraise⟩

end Sys2Proof.Proofs
end

section
/-!
PROOFS. The family of spec/20_memory.md: the channels carry the command function (R55), and at most `RSP_DEPTH` responses are in flight (R53).
-/

namespace Sys2Proof.Proofs

open Sys2Proof Sys2Proof.Machine Sys2Proof.Stated Sys2Proof.Laws

/-! ## Runs of cycles, one cycle at a time -/

theorem runCycles_succ_eq_next {n : Nat} {s t : State} :
    runCycles (n + 1) s = .next t ↔ ∃ u, step s = .next u ∧ runCycles n u = .next t := by
  cases h : step s <;> simp [runCycles, h]

theorem acceptedWords_succ {n : Nat} {s u : State} (h : step s = .next u) :
    acceptedWords (n + 1) s = s.acceptedWord.toList ++ acceptedWords n u := by
  simp [acceptedWords, h]

/-- A step uses up one cycle of the schedule. -/
theorem step_inputs {s t : State} (h : step s = .next t) : t.inputs = s.inputs.tail := by
  rcases step_cases h with ⟨-, -, rfl⟩ | ⟨-, -, -, ⟨held, rfl⟩, -⟩ | ⟨-, -, -, -, rfl⟩ <;> simp

/-- No step changes the parameters (R179). -/
theorem step_params {s t : State} (h : step s = .next t) : t.params = s.params := by
  rcases step_cases h with ⟨-, -, rfl⟩ | ⟨-, -, -, ⟨held, rfl⟩, -⟩ | ⟨-, -, -, -, rfl⟩ <;> simp

theorem nextCycle_of_inputs_nil {s : State} (h : s.inputs = []) : s.nextCycle = Cycle.quiet s.cmdHeld := by
  simp [State.nextCycle, h]

/-- No reset in the next `n + 1` cycles: none at the next edge, and none in the `n` cycles after it. -/
theorem noReset_succ {n : Nat} {s u : State} (hr : NoReset (n + 1) s) (h : step s = .next u) :
    s.nextCycle.rst = false ∧ NoReset n u := by
  unfold NoReset at *
  rw [step_inputs h]
  cases hin : s.inputs with
  | nil => exact ⟨by rw [nextCycle_of_inputs_nil hin]; rfl, by simp⟩
  | cons c rest =>
    simp only [hin, List.take_succ_cons, List.forall_mem_cons] at hr
    rw [nextCycle_of_inputs hin]
    exact hr

/-! ## The machine as its commands see it

The channels are forgotten: what is left of a state is what a command reads and writes, and every response so far. On this view an accepted word
acts by its own effect alone, and a cycle that accepts nothing does not act at all. -/

/-- What the command function reads and writes. -/
structure CommandView where
  params : Params
  arch : Arch
  responses : List Response

/-- The view of a state. -/
def commandView (s : State) : CommandView := ⟨s.params, s.arch, s.responses⟩

/-- One word's own effect: the new S, and one response at the end (R11, R55). -/
def CommandView.advance (v : CommandView) (w : Word) : CommandView :=
  ⟨v.params, (wordEffect v.params v.arch w).1, v.responses ++ [(wordEffect v.params v.arch w).2]⟩

theorem commandView_afterWord (s : State) (w : Word) : commandView (s.afterWord w) = (commandView s).advance w := by
  simp [commandView, CommandView.advance, afterWord_eq]

theorem commandView_afterWords (s : State) (ws : List Word) :
    commandView (afterWords s ws) = ws.foldl CommandView.advance (commandView s) :=
  (List.foldl_hom commandView fun s w => (commandView_afterWord s w).symm).symm

/-- One response per word. -/
theorem responses_length_foldl_advance (v : CommandView) (ws : List Word) :
    (ws.foldl CommandView.advance v).responses.length = v.responses.length + ws.length := by
  induction ws generalizing v with
  | nil => rfl
  | cons w ws ih =>
    have hadv : (v.advance w).responses.length = v.responses.length + 1 := List.length_append
    rw [List.foldl_cons, ih, hadv, List.length_cons]
    omega

/-- A cycle without reset acts on the view by the word it accepts, if it accepts one. -/
theorem commandView_step {s t : State} (h : step s = .next t) (hr : s.nextCycle.rst = false) :
    commandView t = s.acceptedWord.toList.foldl CommandView.advance (commandView s) := by
  rcases step_cases h with ⟨h1, -, -⟩ | ⟨-, -, hw, ⟨held, rfl⟩, -⟩ | ⟨-, -, hw, -, rfl⟩
  · simp [hr] at h1
  · simp [hw, commandView]
  · simp [hw, commandView, CommandView.advance]

/-- A run without reset acts on the view by the words it accepts. -/
theorem commandView_runCycles {n : Nat} {s t : State} (h : runCycles n s = .next t) (hr : NoReset n s) :
    commandView t = (acceptedWords n s).foldl CommandView.advance (commandView s) := by
  induction n generalizing s with
  | zero => cases h; rfl
  | succ n ih =>
    obtain ⟨u, hu, ht⟩ := runCycles_succ_eq_next.1 h
    obtain ⟨hrst, hrest⟩ := noReset_succ hr hu
    rw [acceptedWords_succ hu, List.foldl_append, ← commandView_step hu hrst, ih ht hrest]

/-- Settles O7: the run and the accepted words have the same view. -/
theorem channelsCarryTheCommandFunction : Obligations.ChannelsCarryTheCommandFunction := fun n s t h hr => by
  have hview := commandView_runCycles h hr
  have hwords : commandView t = commandView (afterWords s (acceptedWords n s)) := by rw [hview, commandView_afterWords]
  refine ⟨congrArg CommandView.arch hwords, congrArg CommandView.responses hwords, ?_⟩
  calc t.responses.length
      = ((acceptedWords n s).foldl CommandView.advance (commandView s)).responses.length := by rw [← hview]; rfl
    _ = s.responses.length + (acceptedWords n s).length := responses_length_foldl_advance _ _

/-! ## The depth of the response buffer -/

/-- The response side of a cycle leaves all the responses in flight but the one that is taken. -/
theorem served_inFlight_length (s : State) (c : Cycle) :
    (s.served c).inFlight.length = s.inFlight.length - (if s.rspValid c = true ∧ c.rspReady = true then 1 else 0) := by
  rcases served_cases s c with ⟨ho, h⟩ | ⟨e, rest, hin, -, ho, hc, h⟩ | ⟨e, rest, -, -, ho, hc, h⟩
  · simp [h, State.rspValid, ho]
  · simp [h, State.rspValid, ho, hc, hin]
  · simp [h, hc]

theorem served_inFlight_length_le (s : State) (c : Cycle) : (s.served c).inFlight.length ≤ s.inFlight.length := by
  rw [served_inFlight_length]; exact Nat.sub_le _ _

theorem served_inFlight_length_of_not_rspReady (s : State) {c : Cycle} (hc : c.rspReady = false) :
    (s.served c).inFlight.length = s.inFlight.length := by
  simp [served_inFlight_length, hc]

theorem cmdReady_of_rst (s : State) {c : Cycle} (h : c.rst = true) : s.cmdReady c = false := by
  simp [State.cmdReady, h]

/-- `cmd_ready` is 0 unless the responses left after the one taken leave room for one more (R53). -/
theorem cmdReady_of_full {s : State} {c : Cycle} (h : s.params.rspDepth ≤ (s.served c).inFlight.length) :
    s.cmdReady c = false := Bool.eq_false_iff.2 fun hready => by
  obtain ⟨-, hroom, -⟩ := (cmdReady_iff s c).1 hready
  omega

/-- Every step keeps at most `RSP_DEPTH` responses in flight: the one way to add a response needs `cmd_ready`. -/
theorem step_depth_le {s t : State} (h : step s = .next t) (hs : s.inFlight.length ≤ s.params.rspDepth) :
    t.inFlight.length ≤ t.params.rspDepth := by
  rw [step_params h]
  rcases step_cases h with ⟨-, -, rfl⟩ | ⟨-, -, -, ⟨held, rfl⟩, -⟩ | ⟨-, -, -, hready, rfl⟩
  · simp
  · simpa using (served_inFlight_length_le s s.nextCycle).trans hs
  · obtain ⟨-, hroom, -⟩ := (cmdReady_iff _ _).1 hready
    simpa using hroom

/-- A step without reset drops, reorders and merges no response. -/
theorem step_responses {s t : State} (h : step s = .next t) (hr : s.nextCycle.rst = false) :
    t.responses = s.responses ∨ ∃ r, t.responses = s.responses ++ [r] := by
  have hresp : t.responses = _ := congrArg CommandView.responses (commandView_step h hr)
  rw [hresp]
  cases s.acceptedWord with
  | none => exact .inl rfl
  | some w => exact .inr ⟨_, rfl⟩

/-! ## A host that takes nothing from a full buffer -/

/-- The buffer is full, and the host neither takes a response nor resets in any cycle to come. -/
structure Blocked (s : State) : Prop where
  full : s.params.rspDepth ≤ s.inFlight.length
  untaken : ∀ c ∈ s.inputs, c.rst = false ∧ c.rspReady = false

/-- The quiet cycle after the schedule resets and takes nothing either. -/
theorem Blocked.nextCycle_untaken {s : State} (h : Blocked s) : s.nextCycle.rst = false ∧ s.nextCycle.rspReady = false := by
  cases hin : s.inputs with
  | nil => rw [nextCycle_of_inputs_nil hin]; exact ⟨rfl, rfl⟩
  | cons c rest => rw [nextCycle_of_inputs hin]; exact h.untaken c (by simp [hin])

theorem Blocked.cmdReady_eq_false {s : State} (h : Blocked s) : s.cmdReady s.nextCycle = false :=
  cmdReady_of_full (by rw [served_inFlight_length_of_not_rspReady s h.nextCycle_untaken.2]; exact h.full)

/-- A word is accepted only with `cmd_ready` (R52). -/
theorem cmdReady_of_acceptedWord {s : State} {w : Word} (hw : s.acceptedWord = some w) : s.cmdReady s.nextCycle = true := by
  rcases step_cases (step_of_accepted hw) with ⟨-, hnone, -⟩ | ⟨-, -, hnone, -, -⟩ | ⟨-, -, -, hready, -⟩
  · simp [hnone] at hw
  · simp [hnone] at hw
  · exact hready

theorem Blocked.acceptedWord_eq_none {s : State} (h : Blocked s) : s.acceptedWord = none :=
  Option.eq_none_iff_forall_ne_some.2 fun _ hw => by simpa [h.cmdReady_eq_false] using cmdReady_of_acceptedWord hw

/-- A step from a full buffer that is not emptied leaves it so, and the registers as they were. -/
theorem Blocked.step_keeps {s t : State} (h : Blocked s) (ht : step s = .next t) : Blocked t ∧ t.arch = s.arch := by
  obtain ⟨hrst, hready⟩ := h.nextCycle_untaken
  rcases step_cases ht with ⟨h1, -, -⟩ | ⟨-, -, -, ⟨held, rfl⟩, -⟩ | ⟨-, -, hw, -, -⟩
  · simp [hrst] at h1
  · refine ⟨⟨?_, fun c hc => h.untaken c (List.mem_of_mem_tail (by simpa using hc))⟩, by simp⟩
    simpa [served_inFlight_length_of_not_rspReady s hready] using h.full
  · simp [h.acceptedWord_eq_none] at hw

theorem Blocked.runCycles_keeps {n : Nat} {s t : State} (h : Blocked s) (ht : runCycles n s = .next t) :
    acceptedWords n s = [] ∧ Blocked t ∧ t.arch = s.arch := by
  induction n generalizing s with
  | zero => cases ht; exact ⟨rfl, h, rfl⟩
  | succ n ih =>
    obtain ⟨u, hu, ht⟩ := runCycles_succ_eq_next.1 ht
    obtain ⟨hblocked, harch⟩ := h.step_keeps hu
    obtain ⟨hwords, htblocked, htarch⟩ := ih hblocked ht
    refine ⟨?_, htblocked, htarch.trans harch⟩
    rw [acceptedWords_succ hu, h.acceptedWord_eq_none, hwords]
    rfl

/-- Settles O5: acceptance needs room, and a buffer that is full and not emptied stays so. -/
theorem fullResponseBufferStopsTheCommandChannel : Obligations.FullResponseBufferStopsTheCommandChannel := by
  refine ⟨fun _ _ => step_depth_le, fun s _ => cmdReady_of_rst s, fun s c h => ?_, fun _ _ => step_responses,
    fun n s t hfull huntaken ht => ?_⟩
  · rw [← served_inFlight_length] at h
    exact cmdReady_of_full (Nat.le_of_lt_succ h)
  · obtain ⟨hwords, hblocked, harch⟩ := Blocked.runCycles_keeps ⟨hfull, huntaken⟩ ht
    exact ⟨hwords, hblocked.acceptedWord_eq_none, harch⟩

end Sys2Proof.Proofs
end

section
/-!
PROOFS. The family of spec/30_encoding.md: a word decodes to a command exactly when it is the command's one word (R72, R80), which words are ILLEGAL
(R75) and how many there are of each kind (R79), and what the response to a word can carry (R76, R77).
-/

namespace Sys2Proof.Proofs

open Sys2Proof Sys2Proof.Machine Sys2Proof.Stated Sys2Proof.Laws

/-! ## The decoder and the encoder are inverse -/

theorem encGroup_wellFormed_iff {cnt : BitVec 2} {b0 b1 b2 : Byte} : (Instr.encGroup cnt b0 b1 b2).WellFormed ↔ cnt ≠ 0 := by
  simp [Instr.WellFormed, Instr.wellFormed]

theorem decode_of_rsv_zero {w : Word} (h : rsvField w = 0) : decode w = decodeOp (opField w) (cntField w) (dataField w) := by
  simp [decode, h]

theorem decode_of_rsv_ne_zero {w : Word} (h : rsvField w ≠ 0) : decode w = .error .reservedBits := by
  rw [decode, if_pos h]

theorem rsvField_of_decode_ok {w : Word} {i : Instr} (h : decode w = .ok i) : rsvField w = 0 := by
  by_contra hr
  rw [decode_of_rsv_ne_zero hr] at h
  cases h

/-- The operand of a DEC_CHAR word is the character below sixteen zeros. -/
theorem zeros_append_dataLane {d : Group} (h : charUpper d = 0) : ((0 : BitVec 16) ++ dataLane d 2 : Group) = d := by
  apply BitVec.eq_of_toNat_eq
  have hu := congrArg BitVec.toNat h
  rw [charUpper_toNat] at hu
  rw [charData_toNat, dataLane_toNat]
  simp at hu ⊢
  omega

theorem zeros_append_toNat (c : Byte) : (0#16 ++ c : Group).toNat = c.toNat := charData_toNat c

@[simp] theorem charUpper_zeros_append (c : Byte) : charUpper (0#16 ++ c : Group) = 0 := by
  apply BitVec.eq_of_toNat_eq
  have := c.isLt
  rw [charUpper_toNat, zeros_append_toNat]
  simp; omega

@[simp] theorem dataLane_zeros_append (c : Byte) : dataLane (0#16 ++ c : Group) 2 = c := by
  apply BitVec.eq_of_toNat_eq
  have := c.isLt
  rw [dataLane_toNat, zeros_append_toNat]
  simp; omega

theorem dataLane_threeBytes (b0 b1 b2 : Byte) :
    dataLane (b0 ++ b1 ++ b2 : Group) 0 = b0 ∧ dataLane (b0 ++ b1 ++ b2 : Group) 1 = b1 ∧
      dataLane (b0 ++ b1 ++ b2 : Group) 2 = b2 := by
  have := b0.isLt; have := b1.isLt; have := b2.isLt
  refine ⟨?_, ?_, ?_⟩ <;> apply BitVec.eq_of_toNat_eq <;> rw [dataLane_toNat, threeBytes_toNat] <;> simp <;> omega

/-- A command that the opcode map reads from three fields is well formed, and its word has those fields. -/
theorem encode_of_decodeOp {op : BitVec 4} {cnt : BitVec 2} {d : Group} {i : Instr} (h : decodeOp op cnt d = .ok i) :
    i.WellFormed ∧ encode i = assembleWord op cnt d := by
  rcases op_cases op with rfl | rfl | rfl | rfl | rfl | rfl | hop
  · obtain ⟨rfl, rfl, rfl⟩ := decodeZ_ok.1 h; exact ⟨rfl, rfl⟩
  · obtain ⟨hcnt, rfl⟩ := decodeG_ok.1 h
    exact ⟨encGroup_wellFormed_iff.2 hcnt, by rw [encode, dataLanes_append]⟩
  · obtain ⟨rfl, rfl, rfl⟩ := decodeZ_ok.1 h; exact ⟨rfl, rfl⟩
  · obtain ⟨rfl, hd, rfl⟩ := decodeC_ok.1 h
    exact ⟨rfl, by rw [encode, zeros_append_dataLane hd]⟩
  · obtain ⟨rfl, rfl, rfl⟩ := decodeZ_ok.1 h; exact ⟨rfl, rfl⟩
  · obtain ⟨rfl, rfl, rfl⟩ := decodeZ_ok.1 h; exact ⟨rfl, rfl⟩
  · rw [decodeOp_reserved hop] at h; cases h

theorem decode_encode {i : Instr} (h : i.WellFormed) : decode (encode i) = .ok i := by
  cases i with
  | encGroup cnt b0 b1 b2 =>
    obtain ⟨h0, h1, h2⟩ := dataLane_threeBytes b0 b1 b2
    rw [encode, decode_assembleWord]
    exact decodeG_ok.2 ⟨encGroup_wellFormed_iff.1 h, by rw [h0, h1, h2]⟩
  | decChar c =>
    rw [encode, decode_assembleWord]
    exact decodeC_ok.2 ⟨rfl, charUpper_zeros_append c, by rw [dataLane_zeros_append]⟩
  | nop | decStart | decEnd | query => rfl

/-- A word is a command exactly when it is the one word of that well-formed command. -/
theorem decode_eq_ok_iff {w : Word} {i : Instr} : decode w = .ok i ↔ i.WellFormed ∧ encode i = w := by
  constructor
  · intro h
    have hr := rsvField_of_decode_ok h
    rw [decode_of_rsv_zero hr] at h
    obtain ⟨hwf, he⟩ := encode_of_decodeOp h
    exact ⟨hwf, he.trans (assembleWord_fields hr)⟩
  · rintro ⟨hwf, rfl⟩
    exact decode_encode hwf

/-! ## The match and mask columns of R72 -/

/-- A word is its five fields, with DATA cut as format C cuts it (R70, R71). -/
theorem word_eq_iff_fields {w v : Word} :
    w = v ↔ opField w = opField v ∧ cntField w = cntField v ∧ rsvField w = rsvField v ∧
      charUpper (dataField w) = charUpper (dataField v) ∧ dataLane (dataField w) 2 = dataLane (dataField v) 2 := by
  refine ⟨by rintro rfl; simp, ?_⟩
  simp only [← BitVec.toNat_inj, opField_toNat, cntField_toNat, rsvField_toNat, charUpper_toNat, dataLane_toNat,
    dataField_toNat, Fin.val_two]
  omega

section Mask
variable (w m : Word)

theorem opField_and : opField (w &&& m) = opField w &&& opField m := BitVec.extractLsb'_and
theorem cntField_and : cntField (w &&& m) = cntField w &&& cntField m := BitVec.extractLsb'_and
theorem rsvField_and : rsvField (w &&& m) = rsvField w &&& rsvField m := BitVec.extractLsb'_and
theorem charUpper_dataField_and :
    charUpper (dataField (w &&& m)) = charUpper (dataField w) &&& charUpper (dataField m) := by
  simp only [charUpper, dataField, BitVec.extractLsb'_and]
theorem dataLane_dataField_and (k : Fin 3) :
    dataLane (dataField (w &&& m)) k = dataLane (dataField w) k &&& dataLane (dataField m) k := by
  simp only [dataLane, dataField, BitVec.extractLsb'_and]

end Mask

/-- A mask of ones leaves a field as it is. -/
theorem and_ones_four (x : BitVec 4) : x &&& 15#4 = x := BitVec.and_allOnes
theorem and_ones_two (x : BitVec 2) : x &&& 3#2 = x := BitVec.and_allOnes
theorem and_ones_sixteen (x : BitVec 16) : x &&& 65535#16 = x := BitVec.and_allOnes

/-- The row of ENC_GROUP looks at OP and RSV. -/
theorem encGroup_row_iff (w : Word) : w &&& 0xF3000000 = 0x10000000 ↔ opField w = 1 ∧ rsvField w = 0 := by
  rw [word_eq_iff_fields, opField_and, cntField_and, rsvField_and, charUpper_dataField_and, dataLane_dataField_and]
  simp [opField, cntField, rsvField, charUpper, dataField, dataLane, and_ones_four, and_ones_two]

/-- The row of DEC_CHAR looks at everything but the character. -/
theorem decChar_row_iff (w : Word) : w &&& 0xFFFFFF00 = 0x30000000 ↔
    opField w = 3 ∧ cntField w = 0 ∧ rsvField w = 0 ∧ charUpper (dataField w) = 0 := by
  rw [word_eq_iff_fields, opField_and, cntField_and, rsvField_and, charUpper_dataField_and, dataLane_dataField_and]
  simp [opField, cntField, rsvField, charUpper, dataField, dataLane, and_ones_four, and_ones_two, and_ones_sixteen]

/-- The row of a command without operands is its one word, under the full mask. -/
theorem operandless_row_iff {i : Instr} {v : Word} (hwf : i.WellFormed) (hv : encode i = v) (w : Word) :
    decode w = .ok i ↔ w &&& 0xFFFFFFFF = v := by
  have hfull : w &&& 0xFFFFFFFF = w := BitVec.and_allOnes
  rw [decode_eq_ok_iff, hv, hfull, and_iff_right hwf, eq_comm]

theorem exists_decode_encGroup_iff {w : Word} : (∃ cnt b0 b1 b2, decode w = .ok (.encGroup cnt b0 b1 b2)) ↔
    (opField w = 1 ∧ rsvField w = 0) ∧ cntField w ≠ 0 := by
  constructor
  · rintro ⟨cnt, b0, b1, b2, h⟩
    obtain ⟨hwf, rfl⟩ := decode_eq_ok_iff.1 h
    exact ⟨by simp [encode], by simpa [encode] using encGroup_wellFormed_iff.1 hwf⟩
  · rintro ⟨⟨hop, hrsv⟩, hcnt⟩
    rw [decode_of_rsv_zero hrsv, hop]
    exact ⟨_, _, _, _, decodeG_ok.2 ⟨hcnt, rfl⟩⟩

theorem exists_decode_decChar_iff {w : Word} : (∃ c, decode w = .ok (.decChar c)) ↔
    opField w = 3 ∧ cntField w = 0 ∧ rsvField w = 0 ∧ charUpper (dataField w) = 0 := by
  constructor
  · rintro ⟨c, h⟩
    obtain ⟨-, rfl⟩ := decode_eq_ok_iff.1 h
    simp [encode]
  · rintro ⟨hop, hcnt, hrsv, hdata⟩
    rw [decode_of_rsv_zero hrsv, hop]
    exact ⟨_, decodeC_ok.2 ⟨hcnt, hdata, rfl⟩⟩

/-! ## The ILLEGAL words (R75), and the whole of the opcode map -/

theorem decodeZ_error_iff {i : Instr} {cnt : BitVec 2} {d : Group} :
    (∃ e, decodeZ i cnt d = .error e) ↔ cnt ≠ 0 ∨ d ≠ 0 := by
  unfold decodeZ; split_ifs <;> simp_all

theorem decodeG_error_iff {cnt : BitVec 2} {d : Group} : (∃ e, decodeG cnt d = .error e) ↔ cnt = 0 := by
  unfold decodeG; split_ifs <;> simp_all

theorem decodeC_error_iff {cnt : BitVec 2} {d : Group} :
    (∃ e, decodeC cnt d = .error e) ↔ cnt ≠ 0 ∨ charUpper d ≠ 0 := by
  unfold decodeC; split_ifs <;> simp_all

/-- The five kinds of words that the opcode map rejects. -/
theorem decodeOp_error_iff {op : BitVec 4} {cnt : BitVec 2} {d : Group} : (∃ e, decodeOp op cnt d = .error e) ↔
    6 ≤ op.toNat ∨ (cnt ≠ 0 ∧ op.toNat ≠ 1) ∨ (op.toNat = 1 ∧ cnt = 0) ∨
      ((op.toNat = 0 ∨ op.toNat = 2 ∨ op.toNat = 4 ∨ op.toNat = 5) ∧ d ≠ 0) ∨ (op.toNat = 3 ∧ charUpper d ≠ 0) := by
  rcases op_cases op with rfl | rfl | rfl | rfl | rfl | rfl | hop
  · simpa [decodeOp] using decodeZ_error_iff (i := .nop)
  · simpa [decodeOp] using decodeG_error_iff
  · simpa [decodeOp] using decodeZ_error_iff (i := .decStart)
  · simpa [decodeOp] using decodeC_error_iff
  · simpa [decodeOp] using decodeZ_error_iff (i := .decEnd)
  · simpa [decodeOp] using decodeZ_error_iff (i := .query)
  · exact iff_of_true ⟨_, decodeOp_reserved hop cnt d⟩ (.inl hop)

/-- A word is ILLEGAL when a reserved bit is set, or else when the opcode map rejects it. -/
theorem decode_error_iff {w : Word} : (∃ e, decode w = .error e) ↔
    rsvField w ≠ 0 ∨ ∃ e, decodeOp (opField w) (cntField w) (dataField w) = .error e := by
  by_cases hr : rsvField w = 0
  · simp [decode_of_rsv_zero hr, hr]
  · exact iff_of_true ⟨_, decode_of_rsv_ne_zero hr⟩ (.inl hr)

theorem charUpper_dataField (w : Word) : charUpper (dataField w) = w.extractLsb' 8 16 := by
  simp [charUpper, dataField]

/-- The six kinds of ILLEGAL words, as R75 lists them. -/
theorem decode_error_iff_kinds (w : Word) : (∃ e, decode w = .error e) ↔
    w.extractLsb' 24 2 ≠ 0 ∨ 6 ≤ w.toNat / 2 ^ 28 ∨ (w.extractLsb' 26 2 ≠ 0 ∧ w.toNat / 2 ^ 28 ≠ 1) ∨
      (w.toNat / 2 ^ 28 = 1 ∧ w.extractLsb' 26 2 = 0) ∨
      ((w.toNat / 2 ^ 28 = 0 ∨ w.toNat / 2 ^ 28 = 2 ∨ w.toNat / 2 ^ 28 = 4 ∨ w.toNat / 2 ^ 28 = 5) ∧
        w.extractLsb' 0 24 ≠ 0) ∨
      (w.toNat / 2 ^ 28 = 3 ∧ w.extractLsb' 8 16 ≠ 0) := by
  rw [decode_error_iff, decodeOp_error_iff, opField_toNat, charUpper_dataField]
  rfl

theorem wordEffect_of_error (p : Params) (S : Arch) {w : Word} {e : IllegalReason} (h : decode w = .error e) :
    wordEffect p S w = (S, respond .illegalCmd 0 0) := by
  simp [wordEffect, h]

theorem wordEffect_of_ok (p : Params) (S : Arch) {w : Word} {i : Instr} (h : decode w = .ok i) :
    wordEffect p S w = effect p S i := by
  simp [wordEffect, h]

/-- Settles O16, row by row. -/
theorem opcodeMapIsTheTable : Obligations.OpcodeMapIsTheTable := fun w =>
  ⟨operandless_row_iff rfl rfl w, by rw [encGroup_row_iff]; exact exists_decode_encGroup_iff,
    operandless_row_iff rfl rfl w, by rw [decChar_row_iff]; exact exists_decode_decChar_iff,
    operandless_row_iff rfl rfl w, operandless_row_iff rfl rfl w, fun h => (decode_error_iff_kinds w).2 (.inr (.inl h))⟩

/-- Settles O18: the kinds from the formats, and the answer from the effect of a word that is no command. -/
theorem illegalWordIsAnsweredAndChangesNothing : Obligations.IllegalWordIsAnsweredAndChangesNothing := by
  refine ⟨decode_error_iff_kinds, fun s w e h => ?_⟩
  have heff := wordEffect_of_error s.params s.arch h
  refine ⟨by rw [afterWord_eq, heff]; rfl, fun hacc => ⟨_, step_of_accepted hacc, ?_⟩⟩
  rw [heff]
  exact ⟨rfl, by simp [respond]⟩

/-! ## How many words there are of each kind (R79) -/

/-- The words of the commands in `C`. -/
def wordsOf (C : Set Instr) : Set Word := {w | ∃ i ∈ C, decode w = .ok i}

/-- Well-formed commands and their words are one to one. -/
theorem ncard_wordsOf {C : Set Instr} (hC : ∀ i ∈ C, i.WellFormed) : (wordsOf C).ncard = C.ncard := by
  have hinj : Set.InjOn encode C := fun i hi j hj h => by
    have hdec := congrArg decode h
    rw [decode_encode (hC i hi), decode_encode (hC j hj)] at hdec
    exact Except.ok.inj hdec
  have himage : wordsOf C = encode '' C := by
    ext w
    exact exists_congr fun i => and_congr_right fun hi => decode_eq_ok_iff.trans (and_iff_right (hC i hi))
  rw [himage, hinj.ncard_image]

theorem ncard_decode_eq {i : Instr} (h : i.WellFormed) : {w : Word | decode w = .ok i}.ncard = 1 := by
  simpa [wordsOf] using ncard_wordsOf (C := {i}) (by simpa using h)

theorem card_bitVec (n : Nat) : Nat.card (BitVec n) = 2 ^ n := by
  rw [Nat.card_congr BitVec.equivFin.toEquiv, Nat.card_fin]

/-- The commands without operands. -/
def operandlessCommands : Set Instr := {.nop, .decStart, .decEnd, .query}

/-- The ENC_GROUP commands: every count but 0, with any three bytes. -/
def encGroupCommands : Set Instr :=
  (fun p : BitVec 2 × Byte × Byte × Byte => .encGroup p.1 p.2.1 p.2.2.1 p.2.2.2) '' ({0}ᶜ ×ˢ Set.univ)

theorem mem_encGroupCommands_iff {i : Instr} :
    i ∈ encGroupCommands ↔ i.WellFormed ∧ ∃ cnt b0 b1 b2, i = .encGroup cnt b0 b1 b2 := by
  constructor
  · rintro ⟨⟨cnt, b0, b1, b2⟩, ⟨hcnt, -⟩, rfl⟩
    exact ⟨encGroup_wellFormed_iff.2 hcnt, _, _, _, _, rfl⟩
  · rintro ⟨hwf, cnt, b0, b1, b2, rfl⟩
    exact ⟨⟨cnt, b0, b1, b2⟩, ⟨encGroup_wellFormed_iff.1 hwf, trivial⟩, rfl⟩

theorem ncard_operandlessCommands : operandlessCommands.ncard = 4 := by
  simp [operandlessCommands]

theorem ncard_encGroupCommands : encGroupCommands.ncard = 3 * 2 ^ 24 := by
  have hinj : Function.Injective fun p : BitVec 2 × Byte × Byte × Byte => Instr.encGroup p.1 p.2.1 p.2.2.1 p.2.2.2 := by
    rintro ⟨cnt, b0, b1, b2⟩ ⟨cnt', b0', b1', b2'⟩ h
    simpa using h
  rw [encGroupCommands, Set.ncard_image_of_injective _ hinj, Set.ncard_prod, Set.ncard_compl, Set.ncard_singleton,
    Set.ncard_univ]
  simp only [Nat.card_prod, card_bitVec]
  norm_num

theorem ncard_decChars : (Set.range Instr.decChar).ncard = 256 := by
  rw [Set.ncard_range_of_injective fun _ _ => Instr.decChar.inj, card_bitVec]; rfl

theorem setOf_wellFormed :
    {i : Instr | i.WellFormed} = operandlessCommands ∪ Set.range Instr.decChar ∪ encGroupCommands := by
  ext i
  simp only [Set.mem_union, mem_encGroupCommands_iff, operandlessCommands]
  cases i <;> simp [Instr.WellFormed, Instr.wellFormed]

theorem ncard_wellFormed : {i : Instr | i.WellFormed}.ncard = 3 * 2 ^ 24 + 256 + 4 := by
  have hfin0 := Set.finite_of_ncard_ne_zero (ncard_operandlessCommands.trans_ne (by decide))
  have hfin1 := Set.finite_of_ncard_ne_zero (ncard_decChars.trans_ne (by decide))
  have hfin2 := Set.finite_of_ncard_ne_zero (ncard_encGroupCommands.trans_ne (by decide))
  have hdisj01 : Disjoint operandlessCommands (Set.range Instr.decChar) :=
    Set.disjoint_right.2 (by rintro _ ⟨c, rfl⟩; simp [operandlessCommands])
  have hdisj2 : Disjoint (operandlessCommands ∪ Set.range Instr.decChar) encGroupCommands :=
    Set.disjoint_right.2 (by rintro _ ⟨p, -, rfl⟩; simp [operandlessCommands])
  rw [setOf_wellFormed, Set.ncard_union_eq hdisj2 (hfin0.union hfin1) hfin2, Set.ncard_union_eq hdisj01 hfin0 hfin1,
    ncard_operandlessCommands, ncard_decChars, ncard_encGroupCommands]
  omega

theorem setOf_decode_encGroup :
    {w : Word | ∃ cnt b0 b1 b2, decode w = .ok (.encGroup cnt b0 b1 b2)} = wordsOf encGroupCommands := by
  ext w
  constructor
  · rintro ⟨cnt, b0, b1, b2, h⟩
    exact ⟨_, mem_encGroupCommands_iff.2 ⟨(decode_eq_ok_iff.1 h).1, _, _, _, _, rfl⟩, h⟩
  · rintro ⟨i, hi, h⟩
    obtain ⟨-, cnt, b0, b1, b2, rfl⟩ := mem_encGroupCommands_iff.1 hi
    exact ⟨_, _, _, _, h⟩

theorem setOf_decode_decChar : {w : Word | ∃ c, decode w = .ok (.decChar c)} = wordsOf (Set.range Instr.decChar) := by
  simp [wordsOf]

/-- The ILLEGAL words are the words of no well-formed command. -/
theorem setOf_decode_error : {w : Word | ∃ e, decode w = .error e} = (wordsOf {i | i.WellFormed})ᶜ := by
  ext w
  cases h : decode w with
  | ok i => simp [wordsOf, h, (decode_eq_ok_iff.1 h).1]
  | error e => simp [wordsOf, h]

/-- Settles O19: the words of each kind are as many as its well-formed commands, and the ILLEGAL words are the rest. -/
theorem everyWordHasOneDefinedOutcome : Obligations.EveryWordHasOneDefinedOutcome := by
  refine ⟨ncard_decode_eq rfl, ?_, ncard_decode_eq rfl, ?_, ncard_decode_eq rfl, ncard_decode_eq rfl, ?_,
    fun s w h => ⟨_, step_of_accepted h⟩⟩
  · rw [setOf_decode_encGroup, ncard_wordsOf fun i hi => (mem_encGroupCommands_iff.1 hi).1, ncard_encGroupCommands]
  · rw [setOf_decode_decChar, ncard_wordsOf (by rintro _ ⟨c, rfl⟩; rfl), ncard_decChars]
  · rw [setOf_decode_error, Set.ncard_compl, card_bitVec, ncard_wordsOf (C := {i | i.WellFormed}) fun _ => id,
      ncard_wellFormed]

/-! ## The response to a word (R76, R77) -/

@[simp] theorem respond_rst (st : Status) (cnt : Nat) (data : Word) : (respond st cnt data).rst = st := rfl
@[simp] theorem respond_rcnt_toNat (st : Status) (cnt : Nat) (data : Word) :
    (respond st cnt data).rcnt.toNat = cnt % 8 := BitVec.toNat_ofNat ..

theorem responds_wordEffect (s : State) (w : Word) : Responds s w (wordEffect s.params s.arch w).2 := by
  rw [Responds, afterWord_eq]
  rfl

theorem status_code_le (st : Status) : st.code.toNat ≤ 4 := by
  cases st <;> decide

theorem rspPins_of_offered {s : State} {c : Cycle} {r : Response} (h : s.offered c = some r) :
    s.rspValid c = true ∧ s.rspPins c = some (r.rdata, r.rcnt, r.rst.code) := by
  simp [State.rspValid, State.rspPins, h]

/-- A flush yields at most two bytes (R115). -/
theorem terminated_rcnt_le (d : DState) (S : Arch) : (S.terminated d).2.rcnt.toNat ≤ 2 := by
  have := S.n.isLt
  simp only [Arch.terminated, flushCount, respond_rcnt_toNat]
  omega

/-- An alphabet character completes a group or yields nothing (R119). -/
theorem alpha_response (idx : Index) (S : Arch) :
    (S.alpha idx).2.rst = .ok ∧ ((S.alpha idx).2.rcnt.toNat = 0 ∨ (S.alpha idx).2.rcnt.toNat = 3) := by
  unfold Arch.alpha
  split_ifs <;> simp

/-- The range of RCNT of a DEC_CHAR, by the class of its character. -/
def CharCount (cls : CharClass) (n : Nat) : Prop := if cls = .pad ∨ cls = .term then n ≤ 2 else n = 0 ∨ n = 3

theorem charCount_zero (cls : CharClass) : CharCount cls 0 := by
  unfold CharCount
  split_ifs <;> simp

theorem scanned_response (nul : Bool) (c : Byte) (S : Arch) :
    ((S.scanned nul c).2.rst = .ok ∨ (S.scanned nul c).2.rst = .invalidChar) ∧
      CharCount (c2i nul c).cls (S.scanned nul c).2.rcnt.toNat := by
  rcases scanned_cases nul c S with ⟨hcls, h⟩ | ⟨-, h⟩ | ⟨hcls, h⟩ | ⟨-, h⟩ <;> rw [h]
  · obtain ⟨hst, hcnt⟩ := alpha_response (c2i nul c).index S
    exact ⟨.inl hst, by simpa [CharCount, hcls] using hcnt⟩
  · exact ⟨.inl rfl, charCount_zero _⟩
  · exact ⟨.inl rfl, by rw [CharCount, if_pos hcls]; exact terminated_rcnt_le ..⟩
  · exact ⟨.inr rfl, charCount_zero _⟩

theorem effect_decChar_response (p : Params) (S : Arch) (c : Byte) :
    ((effect p S (.decChar c)).2.rst = .ok ∨ (effect p S (.decChar c)).2.rst = .ignored ∨
      (effect p S (.decChar c)).2.rst = .invalidChar ∨ (effect p S (.decChar c)).2.rst = .notActive) ∧
      CharCount (c2i p.nulTerminates c).cls (effect p S (.decChar c)).2.rcnt.toNat := by
  cases hd : S.dstate with
  | idle | done | fail => simp [effect, hd, charCount_zero]
  | active =>
    obtain ⟨hst, hcnt⟩ := scanned_response p.nulTerminates c S
    simp only [effect, hd]
    exact ⟨by tauto, hcnt⟩

theorem effect_decEnd_response (p : Params) (S : Arch) :
    (effect p S .decEnd).2.rcnt.toNat ≤ 2 ∧ ((effect p S .decEnd).2.rst = .ok ∨
      (effect p S .decEnd).2.rst = .invalidChar ∨ (effect p S .decEnd).2.rst = .notActive) := by
  cases hd : S.dstate with
  | idle | done | fail => simp [effect, hd]
  | active =>
    simp only [effect, hd]
    exact ⟨terminated_rcnt_le .idle S, .inl rfl⟩

theorem effect_encGroup_response (p : Params) (S : Arch) {cnt : BitVec 2} (b0 b1 b2 : Byte) (h : cnt ≠ 0) :
    (effect p S (.encGroup cnt b0 b1 b2)).2.rcnt.toNat = 4 ∧ (effect p S (.encGroup cnt b0 b1 b2)).2.rst = .ok := by
  rw [effect, if_neg h]
  exact ⟨rfl, rfl⟩

/-- Settles O21: the pins carry the offered response, and the response to a word is that of its command's effect. -/
theorem responseRangesByCommand : Obligations.ResponseRangesByCommand := by
  refine ⟨⟨rfl, rfl, rfl, rfl, rfl⟩, status_code_le, fun s c r h => ?_, fun s w => ⟨_, responds_wordEffect s w, ?_⟩⟩
  · obtain ⟨hvalid, hpins⟩ := rspPins_of_offered h
    exact ⟨hvalid, _, hpins, by cases r.rst <;> rfl⟩
  · cases hd : decode w with
    | error e => rw [wordEffect_of_error _ _ hd]; exact ⟨rfl, rfl⟩
    | ok i =>
      rw [wordEffect_of_ok _ _ hd]
      cases i with
      | nop | decStart => exact ⟨rfl, rfl⟩
      | encGroup cnt b0 b1 b2 =>
        obtain ⟨hwf, -⟩ := decode_eq_ok_iff.1 hd
        exact effect_encGroup_response _ _ _ _ _ (encGroup_wellFormed_iff.1 hwf)
      | decChar c => exact effect_decChar_response ..
      | decEnd => exact effect_decEnd_response ..
      | query => exact ⟨rfl, rfl, rfl⟩

end Sys2Proof.Proofs
end

section
/-!
PROOFS. The family of spec/40_encoder.md: the data path that the encoder and the decoder share (R91, R93, R113, R114), ENC_GROUP and its response (R92
to R99), and the host's encode, which the host's decode undoes (R100 to R102).
-/

namespace Sys2Proof.Proofs

open Sys2Proof Sys2Proof.Machine Sys2Proof.Stated Sys2Proof.Laws

/-! ## The barrel shifter and the packers, as arithmetic -/

theorem extract6_toNat (v : Group) (k : Fin 4) : (extract6 v k).toNat = v.toNat / 2 ^ (18 - 6 * k.val) % 64 := by
  simp [extract6, shiftAmount, Nat.shiftRight_eq_div_pow]

/-- An index fits into its slot, so that nothing is shifted out of the group. -/
theorem insert6_toNat (i : Index) (k : Fin 4) : (insert6 i k).toNat = i.toNat * 2 ^ (18 - 6 * k.val) := by
  have hfit : i.toNat * 2 ^ (18 - 6 * k.val) < 2 ^ 24 := calc
    i.toNat * 2 ^ (18 - 6 * k.val) < 2 ^ 6 * 2 ^ (18 - 6 * k.val) := Nat.mul_lt_mul_of_pos_right i.isLt (by positivity)
    _ = 2 ^ (6 + (18 - 6 * k.val)) := (pow_add ..).symm
    _ ≤ 2 ^ 24 := Nat.pow_le_pow_right (by decide) (by omega)
  rw [insert6, BitVec.toNat_shiftLeft, BitVec.toNat_setWidth_of_le (by decide), Nat.shiftLeft_eq, shiftAmount,
    Nat.mod_eq_of_lt hfit]

theorem extract8_toNat (v : Group) (j : Fin 3) : (extract8 v j).toNat = v.toNat / 2 ^ (16 - 8 * j.val) % 256 := by
  simp [extract8, Nat.shiftRight_eq_div_pow]

theorem pack3_toNat (b0 b1 b2 : Byte) : (pack3 b0 b1 b2).toNat = b0.toNat * 65536 + b1.toNat * 256 + b2.toNat := by
  have h0 := b0.isLt; have h1 := b1.isLt; have h2 := b2.isLt
  have hor : (pack3 b0 b1 b2).toNat = b0.toNat * 65536 ||| b1.toNat * 256 ||| b2.toNat := by
    simp only [pack3, BitVec.toNat_or, BitVec.toNat_shiftLeft, BitVec.toNat_setWidth, Nat.shiftLeft_eq]
    congr 2 <;> omega
  rw [hor, or_eq_add (a := b0.toNat * 65536) 16 (by omega) (by omega), or_eq_add 8 (by omega) (by omega)]

theorem pack4_toNat (i0 i1 i2 i3 : Index) :
    (pack4 i0 i1 i2 i3).toNat = i0.toNat * 262144 + i1.toNat * 4096 + i2.toNat * 64 + i3.toNat := by
  have h0 := i0.isLt; have h1 := i1.isLt; have h2 := i2.isLt; have h3 := i3.isLt
  have hor : (pack4 i0 i1 i2 i3).toNat = i0.toNat * 262144 ||| i1.toNat * 4096 ||| i2.toNat * 64 ||| i3.toNat := by
    simp [pack4, insert6_toNat]
  rw [hor, or_eq_add (a := i0.toNat * 262144) 18 (by omega) (by omega),
    or_eq_add (a := i0.toNat * 262144 + i1.toNat * 4096) 12 (by omega) (by omega), or_eq_add 6 (by omega) (by omega)]

/-- A group is its four indices packed. -/
theorem pack4_extract6 (v : Group) : pack4 (extract6 v 0) (extract6 v 1) (extract6 v 2) (extract6 v 3) = v := by
  apply BitVec.eq_of_toNat_eq
  have := v.isLt
  simp [pack4_toNat, extract6_toNat]
  omega

/-- The extractor takes the three bytes out of their group. -/
theorem extract8_pack3 (b0 b1 b2 : Byte) :
    extract8 (pack3 b0 b1 b2) 0 = b0 ∧ extract8 (pack3 b0 b1 b2) 1 = b1 ∧ extract8 (pack3 b0 b1 b2) 2 = b2 := by
  have h0 := b0.isLt; have h1 := b1.isLt; have h2 := b2.isLt
  simp only [← BitVec.toNat_inj, extract8_toNat, pack3_toNat, Fin.val_zero, Fin.val_one, Fin.val_two]
  omega

/-- A bit that is set in an inserted index stands in the slot of that index. -/
theorem slot_of_getLsbD_insert6 {i : Index} {k : Fin 4} {n : Nat} (h : (insert6 i k).getLsbD n = true) : n / 6 = 3 - k.val := by
  simp only [insert6, shiftAmount, BitVec.getLsbD_shiftLeft, BitVec.getLsbD_setWidth, Bool.and_eq_true,
    Bool.not_eq_true', decide_eq_true_eq, decide_eq_false_iff_not] at h
  obtain ⟨⟨-, hlo⟩, -, hbit⟩ := h
  have hhi := BitVec.lt_of_getLsbD hbit
  omega

/-- Two different slots have no bit in common. -/
theorem insert6_and_insert6 (i j : Index) {k l : Fin 4} (h : k ≠ l) : insert6 i k &&& insert6 j l = 0 := by
  refine BitVec.eq_of_getLsbD_eq fun n _ => ?_
  rw [BitVec.getLsbD_and, BitVec.ofNat_eq_ofNat, BitVec.getLsbD_zero, Bool.eq_false_iff, Ne, Bool.and_eq_true]
  rintro ⟨hk, hl⟩
  have hslot := (slot_of_getLsbD_insert6 hk).symm.trans (slot_of_getLsbD_insert6 hl)
  exact h (by omega)

/-- Settles O33. -/
theorem shifterSlotsMakeUpTheGroup : Obligations.ShifterSlotsMakeUpTheGroup :=
  ⟨extract6_toNat, insert6_toNat, fun v => (pack4_extract6 v).symm, fun i j _ _ => insert6_and_insert6 i j⟩

/-- Settles O34. -/
theorem packersAreTheSourcesSums : Obligations.PackersAreTheSourcesSums :=
  ⟨pack3_toNat, pack4_toNat, pack4_extract6, extract8_toNat, extract8_pack3⟩

/-! ## ENC_GROUP: its group and its characters -/

/-- The group of an ENC_GROUP is the source's tuple of the bytes it counts (R92). -/
theorem maskedGroup_toNat (cnt : BitVec 2) (b0 b1 b2 : Byte) : (maskedGroup cnt b0 b1 b2).toNat =
    b0.toNat * 65536 + (if 2 ≤ cnt.toNat then b1.toNat else 0) * 256 + (if cnt.toNat = 3 then b2.toNat else 0) := by
  have hthree : cnt = 3 ↔ cnt.toNat = 3 := BitVec.toNat_inj.symm
  rw [maskedGroup, pack3_toNat, apply_ite BitVec.toNat, apply_ite BitVec.toNat]
  simp only [BitVec.le_def, hthree]
  rfl

/-- The slots beyond CNT of a masked group are empty: CNT bytes fill less than CNT + 1 slots. -/
theorem extract6_maskedGroup_of_lt {cnt : BitVec 2} (b0 b1 b2 : Byte) {k : Fin 4} (hcnt : cnt ≠ 0) (hk : cnt.toNat < k.val) :
    extract6 (maskedGroup cnt b0 b1 b2) k = 0 := by
  have hcases : (cnt = 1 ∧ (k = 2 ∨ k = 3)) ∨ (cnt = 2 ∧ k = 3) := by revert cnt k; decide
  apply BitVec.eq_of_toNat_eq
  rw [extract6_toNat, maskedGroup_toNat]
  rcases hcases with ⟨rfl, rfl | rfl⟩ | ⟨rfl, rfl⟩ <;> simp <;> omega

theorem laneChar_of_le {cnt : BitVec 2} {k : Fin 4} (v : Group) (h : k.val ≤ cnt.toNat) : laneChar cnt v k = i2c (extract6 v k) :=
  if_pos h

theorem laneChar_of_lt {cnt : BitVec 2} {k : Fin 4} (v : Group) (h : cnt.toNat < k.val) : laneChar cnt v k = padChar :=
  if_neg (Nat.not_le.2 h)

/-- Every lane has an entry of the I2C ROM or '='. -/
theorem laneChar_cases (cnt : BitVec 2) (v : Group) (k : Fin 4) : (∃ i, laneChar cnt v k = i2c i) ∨ laneChar cnt v k = padChar :=
  (Nat.lt_or_ge cnt.toNat k.val).symm.imp (fun h => ⟨_, laneChar_of_le v h⟩) (laneChar_of_lt v)

/-- '=' stands exactly in the lanes beyond CNT (R98). -/
theorem laneChar_eq_padChar_iff {cnt : BitVec 2} {v : Group} {k : Fin 4} : laneChar cnt v k = padChar ↔ cnt.toNat < k.val := by
  refine ⟨fun h => Nat.lt_of_not_le fun hle => ?_, laneChar_of_lt v⟩
  rw [laneChar_of_le v hle] at h
  exact i2c_ne_padChar _ h

/-- The character of a lane is the source's (R94). -/
theorem laneChar_toNat (cnt : BitVec 2) (v : Group) (k : Fin 4) :
    (laneChar cnt v k).toNat = encodedChar cnt.toNat v.toNat k.val := by
  have hpow : 64 ^ (3 - k.val) = 2 ^ (18 - 6 * k.val) := by
    rw [show 64 = 2 ^ 6 from rfl, ← pow_mul]
    congr 1
    omega
  rw [laneChar, encodedChar, apply_ite BitVec.toNat, i2c_toNat, extract6_toNat, hpow]
  rfl

theorem lanes_eq_bytesWord (l0 l1 l2 l3 : Byte) : lanes l0 l1 l2 l3 = bytesWord l0.toNat l1.toNat l2.toNat l3.toNat := by
  apply BitVec.eq_of_toNat_eq
  have h0 := l0.isLt; have h1 := l1.isLt; have h2 := l2.isLt; have h3 := l3.isLt
  rw [lanes_toNat, bytesWord, BitVec.toNat_ofNat, Nat.mod_eq_of_lt (by omega)]

theorem groupChars_eq_bytesWord (cnt : BitVec 2) (v : Group) : groupChars cnt v =
    bytesWord (encodedChar cnt.toNat v.toNat 0) (encodedChar cnt.toNat v.toNat 1) (encodedChar cnt.toNat v.toNat 2)
      (encodedChar cnt.toNat v.toNat 3) := by
  simp only [groupChars, lanes_eq_bytesWord, laneChar_toNat]
  rfl

theorem i2c_mem_alphabet (i : Index) : (i2c i).toNat ∈ alphabet := by
  have hlen : i.toNat < alphabet.length := i.isLt
  rw [i2c_toNat, List.getD_eq_getElem _ _ hlen]
  exact List.getElem_mem hlen

/-! ## ENC_GROUP: its effect -/

/-- A command answers what its effect says, and leaves the rest of the state as it was. -/
theorem answers_of_effect {i : Instr} {s : State} {S' : Arch} {st : Status} {cnt : Nat} {data : Word}
    (h : effect s.params s.arch i = (S', respond st cnt data)) : Answers i s S' st cnt data := by
  rw [Answers, exec_eq, h]
  rfl

/-- The response to an ENC_GROUP. It reads the command alone (R90). -/
def encGroupResponse (cnt : BitVec 2) (b0 b1 b2 : Byte) : Response :=
  if cnt = 0 then respond .illegalCmd 0 0 else respond .ok 4 (groupChars cnt (maskedGroup cnt b0 b1 b2))

theorem encGroupResponse_of_ne_zero {cnt : BitVec 2} (b0 b1 b2 : Byte) (h : cnt ≠ 0) :
    encGroupResponse cnt b0 b1 b2 = respond .ok 4 (groupChars cnt (maskedGroup cnt b0 b1 b2)) := if_neg h

/-- ENC_GROUP neither reads nor writes S (R96). -/
@[simp] theorem effect_encGroup (p : Params) (S : Arch) (cnt : BitVec 2) (b0 b1 b2 : Byte) :
    effect p S (.encGroup cnt b0 b1 b2) = (S, encGroupResponse cnt b0 b1 b2) := by
  simp only [effect, encGroupResponse]
  split_ifs <;> rfl

@[simp] theorem effects_encGroup_cons (p : Params) (S : Arch) (cnt : BitVec 2) (b0 b1 b2 : Byte) (is : List Instr) :
    effects p S (.encGroup cnt b0 b1 b2 :: is) = ((effects p S is).1, encGroupResponse cnt b0 b1 b2 :: (effects p S is).2) := by
  simp only [effects, effect_encGroup]

theorem answers_encGroup (s : State) {cnt : BitVec 2} (b0 b1 b2 : Byte) (h : cnt ≠ 0) :
    Answers (.encGroup cnt b0 b1 b2) s s.arch .ok 4 (groupChars cnt (maskedGroup cnt b0 b1 b2)) :=
  answers_of_effect (by rw [effect_encGroup, encGroupResponse_of_ne_zero _ _ _ h])

/-- ENC_GROUP reads its bytes through the masked group alone, so that the bytes beyond CNT have no effect (R92). -/
theorem exec_encGroup_congr {cnt : BitVec 2} {b0 b1 b2 c0 c1 c2 : Byte} (s : State)
    (h : maskedGroup cnt b0 b1 b2 = maskedGroup cnt c0 c1 c2) :
    exec (.encGroup cnt b0 b1 b2) s = exec (.encGroup cnt c0 c1 c2) s := by
  rw [exec_eq, exec_eq, effect_encGroup, effect_encGroup, encGroupResponse, encGroupResponse, h]

/-- The word of an ENC_GROUP, as R95 gives it. -/
theorem encode_encGroup_eq_ofNat (cnt : BitVec 2) (b0 b1 b2 : Byte) : encode (.encGroup cnt b0 b1 b2) =
    BitVec.ofNat 32 (0x10000000 + cnt.toNat * 2 ^ 26 + b0.toNat * 2 ^ 16 + b1.toNat * 2 ^ 8 + b2.toNat) := by
  apply BitVec.eq_of_toNat_eq
  have hcnt := cnt.isLt; have h0 := b0.isLt; have h1 := b1.isLt; have h2 := b2.isLt
  rw [encode, assembleWord_toNat, threeBytes_toNat, BitVec.toNat_ofNat, Nat.mod_eq_of_lt (by omega),
    show (1 : BitVec 4).toNat = 1 from rfl]
  omega

/-- Settles O28: the masked group is the source's tuple and each lane the source's character; which words are ENC_GROUPs is the decoder's. -/
theorem encGroupGivesTheSourcesCharacters : Obligations.EncGroupGivesTheSourcesCharacters := by
  refine ⟨fun s cnt b0 b1 b2 hcnt => ⟨?_, ?_⟩, fun s b0 b1 b2 => ⟨exec_encGroup_congr s rfl, exec_encGroup_congr s rfl⟩,
    fun w hop h => (decode_error_iff_kinds w).2 ?_⟩
  · have hanswer := answers_encGroup s b0 b1 b2 hcnt
    rwa [groupChars_eq_bytesWord, maskedGroup_toNat] at hanswer
  · rw [← encode_encGroup_eq_ofNat]
    exact decode_encode (encGroup_wellFormed_iff.2 hcnt)
  · exact h.symm.imp_right fun hzero => .inr (.inr (.inl ⟨hop, hzero⟩))

/-- Settles O30: a lane within CNT is an entry of the I2C ROM, and one beyond it is '='. -/
theorem encGroupPadsExactlyTheUnusedLanes : Obligations.EncGroupPadsExactlyTheUnusedLanes := fun s cnt b0 b1 b2 hcnt => by
  refine ⟨_, answers_encGroup s b0 b1 b2 hcnt, fun k => ?_⟩
  have hone : 1 ≤ cnt.toNat := Nat.one_le_iff_ne_zero.2 fun h => hcnt (BitVec.eq_of_toNat_eq h)
  rw [lane_groupChars]
  refine ⟨?_, laneChar_eq_padChar_iff, fun hk h => ?_, ?_⟩
  · rcases laneChar_cases cnt (maskedGroup cnt b0 b1 b2) k with ⟨i, h⟩ | h <;> rw [h]
    · exact .inl (i2c_mem_alphabet i)
    · exact .inr rfl
  · have := laneChar_eq_padChar_iff.1 h
    omega
  · rcases laneChar_cases cnt (maskedGroup cnt b0 b1 b2) k with ⟨i, h⟩ | h <;> rw [h]
    · exact (i2c_range i).2.trans_lt (by decide)
    · decide

/-- The characters of a masked group determine it: the slots within CNT are read off them, and the others are empty. -/
theorem maskedGroup_eq_of_laneChar_eq {cnt : BitVec 2} {b0 b1 b2 c0 c1 c2 : Byte} (hcnt : cnt ≠ 0)
    (h : ∀ k, laneChar cnt (maskedGroup cnt b0 b1 b2) k = laneChar cnt (maskedGroup cnt c0 c1 c2) k) :
    maskedGroup cnt b0 b1 b2 = maskedGroup cnt c0 c1 c2 := by
  have hslot (k : Fin 4) : extract6 (maskedGroup cnt b0 b1 b2) k = extract6 (maskedGroup cnt c0 c1 c2) k := by
    rcases Nat.lt_or_ge cnt.toNat k.val with hk | hk
    · rw [extract6_maskedGroup_of_lt _ _ _ hcnt hk, extract6_maskedGroup_of_lt _ _ _ hcnt hk]
    · have hchar := h k
      rw [laneChar_of_le _ hk, laneChar_of_le _ hk] at hchar
      exact i2c_injective hchar
  rw [← pack4_extract6 (maskedGroup cnt b0 b1 b2), ← pack4_extract6 (maskedGroup cnt c0 c1 c2), hslot, hslot, hslot, hslot]

theorem maskedGroup_eq_iff {cnt : BitVec 2} {b0 b1 b2 c0 c1 c2 : Byte} :
    maskedGroup cnt b0 b1 b2 = maskedGroup cnt c0 c1 c2 ↔ b0 = c0 ∧ (2 ≤ cnt.toNat → b1 = c1) ∧ (cnt.toNat = 3 → b2 = c2) := by
  have h0 := b0.isLt; have h1 := b1.isLt; have h2 := b2.isLt; have h0' := c0.isLt; have h1' := c1.isLt; have h2' := c2.isLt
  simp only [← BitVec.toNat_inj, maskedGroup_toNat]
  split_ifs <;> omega

/-- Equal responses are equal lanes. -/
theorem encGroupResponse_eq_iff {cnt : BitVec 2} {b0 b1 b2 c0 c1 c2 : Byte} (hcnt : cnt ≠ 0) :
    encGroupResponse cnt b0 b1 b2 = encGroupResponse cnt c0 c1 c2 ↔
      maskedGroup cnt b0 b1 b2 = maskedGroup cnt c0 c1 c2 := by
  rw [encGroupResponse_of_ne_zero _ _ _ hcnt, encGroupResponse_of_ne_zero _ _ _ hcnt]
  refine ⟨fun h => maskedGroup_eq_of_laneChar_eq hcnt fun k => ?_, fun h => by rw [h]⟩
  have hdata : groupChars cnt (maskedGroup cnt b0 b1 b2) = groupChars cnt (maskedGroup cnt c0 c1 c2) := congrArg Response.rdata h
  rw [← lane_groupChars, ← lane_groupChars, hdata]

/-- Settles O31: equal characters are equal masked groups, and these are equal bytes. -/
theorem encGroupIsInjectiveOnTheRealBytes : Obligations.EncGroupIsInjectiveOnTheRealBytes :=
  fun s cnt b0 b1 b2 c0 c1 c2 hcnt => by
    rw [← maskedGroup_eq_iff, ← encGroupResponse_eq_iff hcnt]
    simp [effects]

/-- Settles O32: an ENC_GROUP hands the S it finds to the commands after it. -/
theorem encGroupAndDecoderDoNotInteract : Obligations.EncGroupAndDecoderDoNotInteract := fun s cnt b0 b1 b2 S p => by
  refine ⟨?_, ?_, ?_, ?_⟩ <;> simp only [issue_arch, responsesTo_eq, effects_encGroup_cons] <;> rfl

/-! ## The host's encode -/

@[simp] theorem respond_rdata (st : Status) (cnt : Nat) (data : Word) : (respond st cnt data).rdata = data := rfl

/-- A response without stream bytes has no stream output. -/
@[simp] theorem stream_respond_zero (st : Status) (data : Word) : (respond st 0 data).stream = [] := rfl

/-- The four characters of a group, as a text. -/
def encodedGroup (cnt : BitVec 2) (b0 b1 b2 : Byte) : List Byte :=
  let v := maskedGroup cnt b0 b1 b2
  [laneChar cnt v 0, laneChar cnt v 1, laneChar cnt v 2, laneChar cnt v 3]

/-- The stream output of an ENC_GROUP is its four characters (R57). -/
theorem stream_encGroupResponse {cnt : BitVec 2} (b0 b1 b2 : Byte) (h : cnt ≠ 0) :
    (encGroupResponse cnt b0 b1 b2).stream = encodedGroup cnt b0 b1 b2 := by
  rw [encGroupResponse_of_ne_zero _ _ _ h]
  simp [Response.stream, encodedGroup, lane_groupChars]

@[simp] theorem hostEncode_nil (s : State) : hostEncode s [] = [] := by
  simp [hostEncode, encodeCommands, effects, streamOutput]

@[simp] theorem hostEncode_one (s : State) (x : Byte) : hostEncode s [x] = encodedGroup 1 x 0 0 := by
  simp [hostEncode, encodeCommands, effects, streamOutput, stream_encGroupResponse]

@[simp] theorem hostEncode_two (s : State) (x y : Byte) : hostEncode s [x, y] = encodedGroup 2 x y 0 := by
  simp [hostEncode, encodeCommands, effects, streamOutput, stream_encGroupResponse]

@[simp] theorem hostEncode_fullGroup (s : State) (x y z : Byte) (rest : List Byte) :
    hostEncode s (x :: y :: z :: rest) = encodedGroup 3 x y z ++ hostEncode s rest := by
  simp [hostEncode, encodeCommands, streamOutput, stream_encGroupResponse]

/-- Every response to a host's encode is that of an ENC_GROUP of one, two or three bytes. -/
theorem exists_encGroupResponse_of_mem {s : State} {x : List Byte} {r : Response} (h : r ∈ responsesTo s (encodeCommands x)) :
    ∃ cnt b0 b1 b2, cnt ≠ 0 ∧ r = encGroupResponse cnt b0 b1 b2 := by
  induction x using encodeCommands.induct with
  | case1 => simp [encodeCommands, effects] at h
  | case2 x => exact ⟨1, x, 0, 0, by decide, by simpa [encodeCommands, effects] using h⟩
  | case3 x y => exact ⟨2, x, y, 0, by decide, by simpa [encodeCommands, effects] using h⟩
  | case4 x y z rest ih =>
    simp only [encodeCommands, responsesTo_eq, effects_encGroup_cons, List.mem_cons] at h ih
    rcases h with rfl | h
    · exact ⟨3, x, y, z, by decide, rfl⟩
    · exact ih h

/-- The four lanes of such a response are its stream output. -/
theorem stream_of_mem_responsesTo_encodeCommands {s : State} {x : List Byte} {r : Response}
    (h : r ∈ responsesTo s (encodeCommands x)) :
    r.stream = [lane r.rdata 0, lane r.rdata 1, lane r.rdata 2, lane r.rdata 3] := by
  obtain ⟨cnt, b0, b1, b2, hcnt, rfl⟩ := exists_encGroupResponse_of_mem h
  rw [encGroupResponse_of_ne_zero _ _ _ hcnt]
  rfl

/-- The commands of an encode, group by group: a full group comes before those of the bytes after it. -/
theorem encodeCommands_eq_groups (x : List Byte) : encodeCommands x =
    (List.range (x.length / 3)).map
        (fun g => Instr.encGroup 3 (x.getD (3 * g) 0) (x.getD (3 * g + 1) 0) (x.getD (3 * g + 2) 0)) ++
      (if x.length % 3 = 1 then [.encGroup 1 (x.getD (3 * (x.length / 3)) 0) 0 0]
       else if x.length % 3 = 2 then
        [.encGroup 2 (x.getD (3 * (x.length / 3)) 0) (x.getD (3 * (x.length / 3) + 1) 0) 0]
       else []) := by
  induction x using encodeCommands.induct with
  | case1 => rfl
  | case2 x => simp [encodeCommands]
  | case3 x y => simp [encodeCommands]
  | case4 x y z rest ih =>
    have hdiv : (x :: y :: z :: rest).length / 3 = rest.length / 3 + 1 := Nat.add_div_right _ three_pos
    have hmod : (x :: y :: z :: rest).length % 3 = rest.length % 3 := Nat.add_mod_right _ 3
    rw [encodeCommands, ih, hdiv, hmod, List.range_succ_eq_map]
    simp [Nat.mul_add, Function.comp_def]

/-- Settles O53. -/
theorem hostEncodeIssuesOneCommandPerGroup : Obligations.HostEncodeIssuesOneCommandPerGroup := fun _ x =>
  ⟨encodeCommands_eq_groups x, List.flatMap_congr fun _ h => stream_of_mem_responsesTo_encodeCommands h⟩

/-- The length law of R101. -/
theorem hostEncode_length (s : State) (b : List Byte) : (hostEncode s b).length = 4 * ((b.length + 2) / 3) := by
  induction b using encodeCommands.induct with
  | case1 => simp
  | case2 x => simp [encodedGroup]
  | case3 x y => simp [encodedGroup]
  | case4 x y z rest ih =>
    simp only [hostEncode_fullGroup, List.length_append, ih, encodedGroup, List.length_cons, List.length_nil]
    omega

/-- Settles O54: the padding of a group by its count. -/
theorem encodedLengthAndPadding : Obligations.EncodedLengthAndPadding := by
  refine ⟨hostEncode_length, fun s => ⟨rfl, hostEncode_nil s⟩, fun s x => ?_, fun s x y => ?_, fun s x y z => ?_⟩
  · exact ⟨_, _, hostEncode_one s x⟩
  · refine ⟨_, _, _, hostEncode_two s x y, ?_, ?_, ?_⟩ <;> exact mt laneChar_eq_padChar_iff.1 (by decide)
  · change padChar ∉ _
    simp [encodedGroup, eq_comm (a := padChar), laneChar_eq_padChar_iff]

/-! ## The host's decode of an encoded text -/

/-- The stream output of a decode response is the first bytes of its group (R116). -/
theorem stream_emit (v : Group) {nb : Nat} (h : nb ≤ 3) :
    (respond .ok nb (emit v nb)).stream = [extract8 v 0, extract8 v 1, extract8 v 2].take nb := by
  interval_cases nb <;> simp [Response.stream, emit]

/-- The responses to the characters of a text and the DEC_END after it, in an operation with nothing pending. -/
def scanResponses (p : Params) (text : List Byte) : List Response :=
  (effects p (emptyArch .active) (charCommands text ++ [.decEnd])).2

/-- From an operation with nothing pending, the text meets no invalid character and yields `out`. -/
def DecodesTo (p : Params) (text out : List Byte) : Prop :=
  (∀ r ∈ scanResponses p text, r.rst ≠ .invalidChar) ∧ streamOutput (scanResponses p text) = out

/-- A host's decode opens an operation with nothing pending, whatever was before (R117). -/
theorem responsesTo_decodeCommands (s : State) (text : List Byte) :
    responsesTo s (decodeCommands text) = respond .ok 0 0 :: scanResponses s.params text := by
  rw [responsesTo_eq]; rfl

theorem hostDecode_of_decodesTo {s : State} {text out : List Byte} (h : DecodesTo s.params text out) :
    hostDecode s text = some out := by
  obtain ⟨hvalid, hout⟩ := h
  have hlast : ((responsesTo s (decodeCommands text)).getLast?.map Response.rst) ≠ some .invalidChar := fun hbad => by
    obtain ⟨r, hr, hrst⟩ := Option.map_eq_some_iff.1 hbad
    have hmem := List.mem_of_getLast? hr
    rw [responsesTo_decodeCommands, List.mem_cons] at hmem
    rcases hmem with rfl | hmem
    · cases hrst
    · exact hvalid r hmem hrst
  rw [hostDecode, if_neg hlast, responsesTo_decodeCommands, ← hout]
  rfl

section Active
variable {S : Arch} (p : Params)

theorem effect_decChar_i2c (i : Index) (h : S.dstate = .active) : effect p S (.decChar (i2c i)) = S.alpha i := by
  simp [effect, h, Arch.scanned, c2i_i2c]

theorem effect_decChar_padChar (h : S.dstate = .active) : effect p S (.decChar padChar) = S.terminated .done := by
  simp [effect, h, Arch.scanned, c2i_cls_padChar]

theorem effect_decChar_of_done (c : Byte) (h : S.dstate = .done) : effect p S (.decChar c) = (S, respond .ignored 0 0) := by
  simp [effect, h]

theorem effect_decEnd_of_active (h : S.dstate = .active) : effect p S .decEnd = S.terminated .idle := by
  simp [effect, h]

theorem effect_decEnd_of_done (h : S.dstate = .done) :
    effect p S .decEnd = ({ S with dstate := .idle }, respond .ok 0 0) := by
  simp [effect, h]

end Active

/-- Four alphabet characters complete a group, and leave nothing pending (R119). -/
theorem effects_fourChars (p : Params) (i0 i1 i2 i3 : Index) :
    effects p (emptyArch .active) (charCommands [i2c i0, i2c i1, i2c i2, i2c i3]) =
      (emptyArch .active,
        [respond .ok 0 0, respond .ok 0 0, respond .ok 0 0, respond .ok 3 (emit (pack4 i0 i1 i2 i3) 3)]) := by
  simp [charCommands, effects, effect_decChar_i2c, emptyArch, Arch.alpha, Arch.pushed, Arch.cleared]

/-- Three alphabet characters and a padding flush two bytes (R121). -/
theorem scanResponses_threeChars (p : Params) (i0 i1 i2 : Index) : scanResponses p [i2c i0, i2c i1, i2c i2, padChar] =
    [respond .ok 0 0, respond .ok 0 0, respond .ok 0 0, respond .ok 2 (emit (pack4 i0 i1 i2 0) 2), respond .ok 0 0] := by
  simp [scanResponses, charCommands, effects, effect_decChar_i2c, effect_decChar_padChar, effect_decEnd_of_done, emptyArch,
    Arch.alpha, Arch.pushed, Arch.terminated, flushCount, Arch.masked, Arch.t, Arch.moved, Arch.cleared]

/-- Two alphabet characters and a padding flush one byte, and a second padding is ignored (R121, R124). -/
theorem scanResponses_twoChars (p : Params) (i0 i1 : Index) : scanResponses p [i2c i0, i2c i1, padChar, padChar] =
    [respond .ok 0 0, respond .ok 0 0, respond .ok 1 (emit (pack4 i0 i1 0 0) 1), respond .ignored 0 0, respond .ok 0 0] := by
  simp [scanResponses, charCommands, effects, effect_decChar_i2c, effect_decChar_padChar, effect_decChar_of_done,
    effect_decEnd_of_done, emptyArch, Arch.alpha, Arch.pushed, Arch.terminated, flushCount, Arch.masked, Arch.t, Arch.moved, Arch.cleared]

theorem decodesTo_nil (p : Params) : DecodesTo p [] [] := by
  have hscan : scanResponses p [] = [respond .ok 0 0] := by
    simp [scanResponses, charCommands, effects, effect_decEnd_of_active, emptyArch, Arch.terminated, flushCount]
    rfl
  simp [DecodesTo, hscan, streamOutput]

theorem decodesTo_oneByte (p : Params) (x : Byte) : DecodesTo p (encodedGroup 1 x 0 0) [x] := by
  have hgroup := pack4_extract6 (maskedGroup 1 x 0 0)
  rw [extract6_maskedGroup_of_lt (k := 2) x 0 0 (by decide) (by decide),
    extract6_maskedGroup_of_lt (k := 3) x 0 0 (by decide) (by decide)] at hgroup
  have hscan := scanResponses_twoChars p (extract6 (maskedGroup 1 x 0 0) 0) (extract6 (maskedGroup 1 x 0 0) 1)
  rw [hgroup] at hscan
  have hbyte : extract8 (maskedGroup 1 x 0 0) 0 = x := (extract8_pack3 x 0 0).1
  change DecodesTo p [i2c _, i2c _, padChar, padChar] [x]
  rw [DecodesTo, hscan]
  simpa [streamOutput, stream_emit] using hbyte

theorem decodesTo_twoBytes (p : Params) (x y : Byte) : DecodesTo p (encodedGroup 2 x y 0) [x, y] := by
  have hgroup := pack4_extract6 (maskedGroup 2 x y 0)
  rw [extract6_maskedGroup_of_lt (k := 3) x y 0 (by decide) (by decide)] at hgroup
  have hscan := scanResponses_threeChars p (extract6 (maskedGroup 2 x y 0) 0) (extract6 (maskedGroup 2 x y 0) 1)
    (extract6 (maskedGroup 2 x y 0) 2)
  rw [hgroup] at hscan
  obtain ⟨hx, hy, -⟩ : extract8 (maskedGroup 2 x y 0) 0 = x ∧ extract8 (maskedGroup 2 x y 0) 1 = y ∧ _ := extract8_pack3 x y 0
  change DecodesTo p [i2c _, i2c _, i2c _, padChar] [x, y]
  rw [DecodesTo, hscan]
  simpa [streamOutput, stream_emit] using And.intro hx hy

theorem decodesTo_fullGroup {p : Params} {text out : List Byte} (x y z : Byte) (h : DecodesTo p text out) :
    DecodesTo p (encodedGroup 3 x y z ++ text) (x :: y :: z :: out) := by
  obtain ⟨hvalid, hout⟩ := h
  obtain ⟨hx, hy, hz⟩ := extract8_pack3 x y z
  have hfour : effects p (emptyArch .active) (charCommands (encodedGroup 3 x y z)) = (emptyArch .active,
      [respond .ok 0 0, respond .ok 0 0, respond .ok 0 0, respond .ok 3 (emit (pack3 x y z) 3)]) := by
    conv_rhs => rw [← pack4_extract6 (pack3 x y z)]
    exact effects_fourChars ..
  have hscan : scanResponses p (encodedGroup 3 x y z ++ text) =
      [respond .ok 0 0, respond .ok 0 0, respond .ok 0 0, respond .ok 3 (emit (pack3 x y z) 3)] ++ scanResponses p text := by
    rw [scanResponses, charCommands, List.map_append, List.append_assoc, effects_append, ← charCommands, hfour]
    rfl
  rw [DecodesTo, hscan]
  constructor
  · simpa using hvalid
  · simpa [streamOutput, stream_emit, hx, hy, hz] using hout

theorem decodesTo_hostEncode (p : Params) (s : State) (b : List Byte) : DecodesTo p (hostEncode s b) b := by
  induction b using encodeCommands.induct with
  | case1 => rw [hostEncode_nil]; exact decodesTo_nil p
  | case2 x => rw [hostEncode_one]; exact decodesTo_oneByte p x
  | case3 x y => rw [hostEncode_two]; exact decodesTo_twoBytes p x y
  | case4 x y z rest ih => rw [hostEncode_fullGroup]; exact decodesTo_fullGroup x y z ih

/-- Settles O55: group by group of the input. -/
theorem decodeOfEncodeIsTheInput : Obligations.DecodeOfEncodeIsTheInput := fun s s' b =>
  hostDecode_of_decodesTo (decodesTo_hostEncode s'.params s b)

end Sys2Proof.Proofs
end

section
/-!
PROOFS. The family of spec/41_decoder.md: the bytes of a decode response (R114 to R116), what DEC_START, DEC_CHAR and DEC_END do in each DSTATE (R117
to R129), the words that do not bear on the decoder (R130), and the host's decode, which is the source's scan (R127, R132, R133).
-/

namespace Sys2Proof.Proofs

open Sys2Proof Sys2Proof.Machine Sys2Proof.Stated Sys2Proof.Laws

/-! ## The bytes of a decode response -/

/-- Lane `j` of a decode response is byte `j` of the group, or zero beyond the count. -/
theorem lane_emit (v : Group) (nb : Nat) (j : Fin 3) : lane (emit v nb) j.castSucc = if j.val < nb then extract8 v j else 0 := by
  match j with
  | 0 => exact lane_lanes_0 ..
  | 1 => exact lane_lanes_1 ..
  | 2 => exact lane_lanes_2 ..

/-- Settles O35. -/
theorem flushCountsAndEmittedLanes : Obligations.FlushCountsAndEmittedLanes :=
  ⟨rfl, rfl, rfl, rfl, fun v nb j _ => ⟨lane_lanes_3 .., lane_emit v nb j⟩⟩

/-- The lanes of a decode response are the source's divisions of the group. -/
theorem emit_eq_decodedWord (v : Group) (nb : Nat) : emit v nb = decodedWord v.toNat nb := by
  have := v.isLt
  have h0 : (extract8 v 0).toNat = v.toNat / 65536 := (extract8_toNat v 0).trans (Nat.mod_eq_of_lt (by simp; omega))
  have h1 : (extract8 v 1).toNat = v.toNat / 256 % 256 := extract8_toNat v 1
  have h2 : (extract8 v 2).toNat = v.toNat % 256 := by simp [extract8_toNat]
  rw [emit, lanes_eq_bytesWord, decodedWord]
  simp only [apply_ite BitVec.toNat, h0, h1, h2, BitVec.ofNat_eq_ofNat, BitVec.toNat_ofNat, Nat.zero_mod]

/-- The accumulator, packed through its mask, is the source's tuple of the pending indices (R112, R113). -/
theorem pack4_masked_toNat (S : Arch) : (pack4 (S.masked 0) (S.masked 1) (S.masked 2) 0).toNat = pendingTuple S := by
  simp [pack4_toNat, Arch.masked, apply_ite BitVec.toNat, pendingTuple, Arch.t]

/-- A flush, in the source's arithmetic (R121). -/
theorem terminated_eq (d : DState) (S : Arch) : S.terminated d =
    (emptyArch d, respond .ok (S.n.toNat - 1) (decodedWord (pendingTuple S) (S.n.toNat - 1))) := by
  rw [Arch.terminated, emit_eq_decodedWord, pack4_masked_toNat]
  rfl

/-- A completed group, in the source's arithmetic (R119). -/
theorem alpha_eq_of_full {S : Arch} (idx : Index) (h : S.n = 3) : S.alpha idx =
    (S.cleared, respond .ok 3 (decodedWord (S.t0.toNat * 262144 + S.t1.toNat * 4096 + S.t2.toNat * 64 + idx.toNat) 3)) := by
  rw [Arch.alpha, if_pos h, emit_eq_decodedWord, pack4_toNat]

theorem alpha_eq_of_not_full {S : Arch} (idx : Index) (h : S.n ≠ 3) : S.alpha idx = (S.pushed idx, respond .ok 0 0) := if_neg h

theorem alpha_dstate (idx : Index) (S : Arch) : (S.alpha idx).1.dstate = S.dstate := by
  rcases alpha_arch_cases idx S with ⟨-, h⟩ | ⟨-, h⟩ <;> simp [h]

/-! ## The effect of a decoder command, by DSTATE and by the class of the character -/

section DState
variable {S : Arch} (p : Params)

theorem effect_decChar_of_idle (c : Byte) (h : S.dstate = .idle) : effect p S (.decChar c) = (S, respond .notActive 0 0) := by
  simp [effect, h]

theorem effect_decChar_of_fail (c : Byte) (h : S.dstate = .fail) : effect p S (.decChar c) = (S, respond .ignored 0 0) := by
  simp [effect, h]

theorem effect_decChar_of_active (c : Byte) (h : S.dstate = .active) :
    effect p S (.decChar c) = S.scanned p.nulTerminates c := by
  simp [effect, h]

theorem effect_decEnd_of_idle (h : S.dstate = .idle) : effect p S .decEnd = (S, respond .notActive 0 0) := by
  simp [effect, h]

theorem effect_decEnd_of_fail (h : S.dstate = .fail) :
    effect p S .decEnd = ({ S with dstate := .idle }, respond .invalidChar 0 0) := by
  simp [effect, h]

end DState

section Class
variable {nul : Bool} {c : Byte} (S : Arch)

theorem scanned_of_alpha (h : (c2i nul c).cls = .alpha) : S.scanned nul c = S.alpha (c2i nul c).index := by
  simp [Arch.scanned, h]

theorem scanned_of_ws (h : (c2i nul c).cls = .ws) : S.scanned nul c = (S, respond .ok 0 0) := by
  simp [Arch.scanned, h]

theorem scanned_of_terminator (h : (c2i nul c).cls = .pad ∨ (c2i nul c).cls = .term) : S.scanned nul c = S.terminated .done := by
  rcases h with h | h <;> simp [Arch.scanned, h]

theorem scanned_of_invalid (h : (c2i nul c).cls = .invalid) : S.scanned nul c = S.failed := by
  simp [Arch.scanned, h]

end Class

section Answers
variable {s : State} {c : Byte}

theorem answers_decStart (s : State) : Answers .decStart s (emptyArch .active) .ok 0 0 := answers_of_effect rfl

theorem answers_decChar_of_idle (h : s.arch.dstate = .idle) : Answers (.decChar c) s s.arch .notActive 0 0 :=
  answers_of_effect (effect_decChar_of_idle _ c h)

theorem answers_decChar_of_done (h : s.arch.dstate = .done) : Answers (.decChar c) s s.arch .ignored 0 0 :=
  answers_of_effect (effect_decChar_of_done _ c h)

theorem answers_decChar_of_fail (h : s.arch.dstate = .fail) : Answers (.decChar c) s s.arch .ignored 0 0 :=
  answers_of_effect (effect_decChar_of_fail _ c h)

theorem answers_decEnd_of_idle (h : s.arch.dstate = .idle) : Answers .decEnd s s.arch .notActive 0 0 :=
  answers_of_effect (effect_decEnd_of_idle _ h)

theorem answers_decEnd_of_active (h : s.arch.dstate = .active) : Answers .decEnd s (emptyArch .idle) .ok (s.arch.n.toNat - 1)
    (decodedWord (pendingTuple s.arch) (s.arch.n.toNat - 1)) :=
  answers_of_effect (by rw [effect_decEnd_of_active _ h, terminated_eq])

theorem answers_decEnd_of_done (h : s.arch.dstate = .done) : Answers .decEnd s { s.arch with dstate := .idle } .ok 0 0 :=
  answers_of_effect (effect_decEnd_of_done _ h)

theorem answers_decEnd_of_fail (h : s.arch.dstate = .fail) :
    Answers .decEnd s { s.arch with dstate := .idle } .invalidChar 0 0 :=
  answers_of_effect (effect_decEnd_of_fail _ h)

/-- In ACTIVE a DEC_CHAR answers what its scan says. -/
theorem answers_decChar_of_scanned {S' : Arch} {st : Status} {cnt : Nat} {data : Word} (h : s.arch.dstate = .active)
    (hscan : s.arch.scanned s.params.nulTerminates c = (S', respond st cnt data)) : Answers (.decChar c) s S' st cnt data :=
  answers_of_effect (by rw [effect_decChar_of_active _ c h, hscan])

theorem answers_decChar_of_alpha_full (h : s.arch.dstate = .active) (hc : (c2i s.params.nulTerminates c).cls = .alpha)
    (hn : s.arch.n = 3) : Answers (.decChar c) s s.arch.cleared .ok 3 (decodedWord (s.arch.t0.toNat * 262144 +
      s.arch.t1.toNat * 4096 + s.arch.t2.toNat * 64 + (c2i s.params.nulTerminates c).index.toNat) 3) :=
  answers_decChar_of_scanned h (by rw [scanned_of_alpha _ hc, alpha_eq_of_full _ hn])

theorem answers_decChar_of_alpha_not_full (h : s.arch.dstate = .active) (hc : (c2i s.params.nulTerminates c).cls = .alpha)
    (hn : s.arch.n ≠ 3) : Answers (.decChar c) s (s.arch.pushed (c2i s.params.nulTerminates c).index) .ok 0 0 :=
  answers_decChar_of_scanned h (by rw [scanned_of_alpha _ hc, alpha_eq_of_not_full _ hn])

theorem answers_decChar_of_ws (h : s.arch.dstate = .active) (hc : (c2i s.params.nulTerminates c).cls = .ws) :
    Answers (.decChar c) s s.arch .ok 0 0 :=
  answers_decChar_of_scanned h (scanned_of_ws _ hc)

theorem answers_decChar_of_terminator (h : s.arch.dstate = .active)
    (hc : (c2i s.params.nulTerminates c).cls = .pad ∨ (c2i s.params.nulTerminates c).cls = .term) :
    Answers (.decChar c) s (emptyArch .done) .ok (s.arch.n.toNat - 1)
      (decodedWord (pendingTuple s.arch) (s.arch.n.toNat - 1)) :=
  answers_decChar_of_scanned h (by rw [scanned_of_terminator _ hc, terminated_eq])

theorem answers_decChar_of_invalid (h : s.arch.dstate = .active) (hc : (c2i s.params.nulTerminates c).cls = .invalid) :
    Answers (.decChar c) s (emptyArch .fail) .invalidChar 0 0 :=
  answers_decChar_of_scanned h (scanned_of_invalid _ hc)

end Answers

/-! ## DEC_START, DEC_CHAR and DEC_END -/

/-- Settles O39. -/
theorem decStartOpensAnOperation : Obligations.DecStartOpensAnOperation := ⟨answers_decStart, rfl⟩

/-- Settles O40. -/
theorem decCharOutsideActiveChangesNothing : Obligations.DecCharOutsideActiveChangesNothing := fun _ _ =>
  ⟨answers_decChar_of_idle, fun h => h.elim answers_decChar_of_done answers_decChar_of_fail⟩

/-- Settles O41: the index goes to the position that N names, and the fourth completes the group. -/
theorem decCharOfTheAlphabetFillsOrCompletes : Obligations.DecCharOfTheAlphabetFillsOrCompletes := fun s c idx hd hc => by
  have hcls : (c2i s.params.nulTerminates c).cls = .alpha := by rw [hc]
  have hpush (hn : s.arch.n ≠ 3) : Answers (.decChar c) s (s.arch.pushed idx) .ok 0 0 := by
    simpa [hc] using answers_decChar_of_alpha_not_full hd hcls hn
  refine ⟨fun hn => ?_, fun hn => ?_, fun hn => ?_, fun hn => ?_⟩
  · simpa [Arch.pushed, hn] using hpush (by simp [hn])
  · simpa [Arch.pushed, hn] using hpush (by simp [hn])
  · simpa [Arch.pushed, hn] using hpush (by simp [hn])
  · have hempty : s.arch.cleared = emptyArch .active := by rw [cleared_eq_moved, hd]; rfl
    simpa [hc, hempty] using answers_decChar_of_alpha_full hd hcls hn

theorem c2i_cls_of_mem_whitespace (nul : Bool) (c : Byte) :
    c ∈ ([0x08, 0x09, 0x0A, 0x0C, 0x0D, 0x20] : List Byte) → (c2i nul c).cls = .ws := fun h =>
  c2i_cls_of_isSpaceCode nul (by simpa [isSpaceCode, or_assoc] using h)

/-- Settles O42. -/
theorem decCharOfWhitespaceIsSkipped : Obligations.DecCharOfWhitespaceIsSkipped := fun _ c hd hc =>
  answers_decChar_of_ws hd (c2i_cls_of_mem_whitespace _ c hc)

/-- Settles O43. -/
theorem decCharOfPaddingFlushesAndEnds : Obligations.DecCharOfPaddingFlushesAndEnds :=
  ⟨fun _ hd => ⟨answers_decChar_of_terminator hd (.inl (c2i_cls_padChar _)), answers_decEnd_of_active hd⟩,
    fun _ _ => answers_decChar_of_done⟩

/-- Settles O44: 0x00 is a terminator or invalid, as the parameter says. -/
theorem decCharOfNulFollowsTheParameter : Obligations.DecCharOfNulFollowsTheParameter := fun s hd => by
  refine ⟨fun hnul => ?_, fun hnul => answers_decChar_of_invalid hd (by rw [hnul]; rfl)⟩
  have hterm : (c2i s.params.nulTerminates 0x00).cls = .term := by rw [hnul]; rfl
  have hpad : (c2i s.params.nulTerminates 0x3D).cls = .pad := c2i_cls_padChar _
  rw [exec_eq, exec_eq, effect_decChar_of_active _ _ hd, effect_decChar_of_active _ _ hd, scanned_of_terminator _ (.inr hterm),
    scanned_of_terminator _ (.inl hpad)]

/-- The invalid codes that R123 lists. -/
theorem c2i_cls_of_listed_invalid (nul : Bool) (c : Byte) :
    0x80 ≤ c.toNat ∨ c ∈ ([0x0B, 0x7F, 0x40, 0x2D, 0x5F] : List Byte) → (c2i nul c).cls = .invalid := by
  revert nul c; decide

/-- Settles O45. -/
theorem decCharInvalidFailsTheOperation : Obligations.DecCharInvalidFailsTheOperation :=
  ⟨fun _ _ => answers_decChar_of_invalid, fun _ _ hd => ⟨answers_decChar_of_fail hd, answers_decEnd_of_fail hd⟩,
    c2i_cls_of_listed_invalid⟩

/-- Under the registers' invariant nothing is pending outside ACTIVE (R30). -/
theorem eq_emptyArch_of_inv {S : Arch} (h : S.Inv) (hd : S.dstate ≠ .active) : S = emptyArch S.dstate := by
  obtain ⟨h0, h1, h2, hidle⟩ := h
  have hn := hidle hd
  have ht0 := h0 hn
  have ht1 := h1 (by simp [hn])
  have ht2 := h2 (by simp [hn])
  cases S
  simp_all [emptyArch]

/-- After DEC_END the decoder is IDLE with nothing pending, wherever the invariant held (R125). -/
theorem effect_decEnd_arch_of_inv (p : Params) {S : Arch} (h : S.Inv) : (effect p S .decEnd).1 = emptyArch .idle := by
  cases hd : S.dstate with
  | active => rw [effect_decEnd_of_active p hd, terminated_eq]
  | idle | done | fail =>
    rw [eq_emptyArch_of_inv h (by simp [hd]), hd]
    rfl

/-- Settles O46. -/
theorem decEndClosesTheOperation : Obligations.DecEndClosesTheOperation :=
  ⟨rfl, fun s => ⟨fun h => ⟨_, exec_eq .decEnd s, effect_decEnd_arch_of_inv s.params h⟩, answers_decEnd_of_idle,
    answers_decEnd_of_active, answers_decEnd_of_done, answers_decEnd_of_fail⟩⟩

/-! ## The decode state machine -/

/-- What a command answers fixes how it moves the state machine. -/
theorem moves_of_answers {i : Instr} {s : State} {S' : Arch} {st : Status} {cnt : Nat} {data : Word}
    (h : Answers i s S' st cnt data) (hcnt : cnt < 8) : Moves i s S'.dstate st cnt :=
  ⟨_, _, h, rfl, rfl, rfl, (BitVec.toNat_ofNat ..).trans (Nat.mod_eq_of_lt hcnt)⟩

/-- The commands outside the decoder leave S as it is (R77, R96, R140, R141). -/
theorem effect_arch_of_not_decoder (p : Params) (S : Arch) {i : Instr}
    (hi : i = .nop ∨ i = .query ∨ ∃ cnt b0 b1 b2, i = .encGroup cnt b0 b1 b2) : (effect p S i).1 = S := by
  rcases hi with rfl | rfl | ⟨cnt, b0, b1, b2, rfl⟩
  · rfl
  · rfl
  · rw [effect_encGroup]

/-- The moves of ACTIVE, by the class of the character. -/
theorem moves_decChar_of_active {s : State} (c : Byte) (hd : s.arch.dstate = .active) :
    match (c2i s.params.nulTerminates c).cls with
    | .alpha => Moves (.decChar c) s .active .ok (if s.arch.n = 3 then 3 else 0)
    | .ws => Moves (.decChar c) s .active .ok 0
    | .pad => Moves (.decChar c) s .done .ok (s.arch.n.toNat - 1)
    | .term => Moves (.decChar c) s .done .ok (s.arch.n.toNat - 1)
    | .invalid => Moves (.decChar c) s .fail .invalidChar 0 := by
  have hflush : s.arch.n.toNat - 1 < 8 := by omega
  cases hc : (c2i s.params.nulTerminates c).cls with
  | alpha =>
    by_cases hn : s.arch.n = 3
    · simpa only [if_pos hn, Arch.cleared_dstate, hd] using
        moves_of_answers (answers_decChar_of_alpha_full hd hc hn) (by decide)
    · simpa only [if_neg hn, Arch.pushed_dstate, hd] using
        moves_of_answers (answers_decChar_of_alpha_not_full hd hc hn) (by decide)
  | ws => simpa [hd] using moves_of_answers (answers_decChar_of_ws hd hc) (by decide)
  | pad => exact moves_of_answers (answers_decChar_of_terminator hd (.inl hc)) hflush
  | term => exact moves_of_answers (answers_decChar_of_terminator hd (.inr hc)) hflush
  | invalid => exact moves_of_answers (answers_decChar_of_invalid hd hc) (by decide)

/-- Settles O47, row by row of the table. -/
theorem decodeStateMachineIsTheTable : Obligations.DecodeStateMachineIsTheTable := by
  refine fun s c => ⟨fun i hi => ⟨_, exec_eq i s, ?_⟩, fun w e he => ?_, ?_, fun _ => ⟨_, answers_decStart s, rfl⟩, fun hd => ?_,
    fun hd => ?_, fun hd => ?_, fun hd => ?_⟩
  · rw [State.complete_arch, effect_arch_of_not_decoder _ _ hi]
  · rw [afterWord_eq, wordEffect_of_error _ _ he, State.complete_arch]
  · exact moves_of_answers (answers_decStart s) (by decide)
  · exact ⟨hd ▸ moves_of_answers (answers_decChar_of_idle hd) (by decide),
      hd ▸ moves_of_answers (answers_decEnd_of_idle hd) (by decide)⟩
  · exact ⟨hd ▸ moves_of_answers (answers_decChar_of_done hd) (by decide),
      moves_of_answers (answers_decEnd_of_done hd) (by decide)⟩
  · exact ⟨hd ▸ moves_of_answers (answers_decChar_of_fail hd) (by decide),
      moves_of_answers (answers_decEnd_of_fail hd) (by decide)⟩
  · exact ⟨moves_of_answers (answers_decEnd_of_active hd) (by omega), moves_decChar_of_active c hd⟩

/-! ## Which commands yield bytes (R129) -/

/-- `i` completes a group of four. -/
def Completes (p : Params) (S : Arch) (i : Instr) : Prop :=
  S.dstate = .active ∧ S.n = 3 ∧ ∃ c, i = .decChar c ∧ (c2i p.nulTerminates c).cls = .alpha

/-- `i` flushes what is pending. -/
def Flushes (p : Params) (S : Arch) (i : Instr) : Prop :=
  S.dstate = .active ∧
    (i = .decEnd ∨ ∃ c, i = .decChar c ∧ ((c2i p.nulTerminates c).cls = .pad ∨ (c2i p.nulTerminates c).cls = .term))

/-- A command of a decode operation completes a group and yields three bytes, flushes and yields one byte less than there are indices, or does
neither and yields none. -/
theorem decoder_rcnt_cases (p : Params) (S : Arch) {i : Instr} (hi : i = .decStart ∨ (∃ c, i = .decChar c) ∨ i = .decEnd) :
    (Completes p S i ∧ ¬Flushes p S i ∧ (effect p S i).2.rcnt.toNat = 3) ∨
    (¬Completes p S i ∧ Flushes p S i ∧ (effect p S i).2.rcnt.toNat = S.n.toNat - 1) ∨
    (¬Completes p S i ∧ ¬Flushes p S i ∧ (effect p S i).2.rcnt.toNat = 0) := by
  have hflush (d : DState) : (S.terminated d).2.rcnt.toNat = S.n.toNat - 1 := by
    rw [terminated_eq, respond_rcnt_toNat]; omega
  rcases hi with rfl | ⟨c, rfl⟩ | rfl
  · exact .inr (.inr (by simp [Completes, Flushes, effect]))
  · cases hd : S.dstate with
    | idle | done | fail => exact .inr (.inr (by simp [Completes, Flushes, effect, hd]))
    | active =>
      rw [effect_decChar_of_active p c hd]
      rcases scanned_cases p.nulTerminates c S with ⟨hc, h⟩ | ⟨hc, h⟩ | ⟨hc, h⟩ | ⟨hc, h⟩ <;> rw [h]
      · by_cases hn : S.n = 3
        · exact .inl (by simp [Completes, Flushes, hd, hc, hn, alpha_eq_of_full])
        · exact .inr (.inr ⟨fun ⟨_, hfull, _⟩ => hn hfull, by simp [Flushes, hc], by simp [alpha_eq_of_not_full _ hn]⟩)
      · exact .inr (.inr (by simp [Completes, Flushes, hc]))
      · refine .inr (.inl ⟨?_, ⟨hd, .inr ⟨c, rfl, hc⟩⟩, hflush .done⟩)
        rcases hc with hc | hc <;> simp [Completes, hc]
      · exact .inr (.inr (by simp [Completes, Flushes, hc, Arch.failed]))
  · cases hd : S.dstate with
    | idle | done | fail => exact .inr (.inr (by simp [Completes, Flushes, effect, hd]))
    | active =>
      rw [effect_decEnd_of_active p hd]
      exact .inr (.inl ⟨by simp [Completes], ⟨hd, .inl rfl⟩, hflush .idle⟩)

theorem responsesTo_singleton (s : State) (i : Instr) : responsesTo s [i] = [(effect s.params s.arch i).2] := by
  rw [responsesTo_eq]; rfl

/-- Settles O48. -/
theorem onlyCompletionsAndTerminatorsYieldBytes : Obligations.OnlyCompletionsAndTerminatorsYieldBytes := fun s i r hi hr => by
  obtain rfl := List.singleton_inj.1 ((responsesTo_singleton s i).symm.trans hr)
  have hn := s.arch.n.isLt
  have hfour : (effect s.params s.arch i).2.rcnt.toNat = 3 ↔ Completes s.params s.arch i := by
    rcases decoder_rcnt_cases s.params s.arch hi with ⟨hc, -, h⟩ | ⟨hc, -, h⟩ | ⟨hc, -, h⟩ <;>
      simp only [hc, h, iff_false] <;> omega
  have hpart : (effect s.params s.arch i).2.rcnt.toNat = 1 ∨ (effect s.params s.arch i).2.rcnt.toNat = 2 ↔
      2 ≤ s.arch.n.toNat ∧ Flushes s.params s.arch i := by
    rcases decoder_rcnt_cases s.params s.arch hi with ⟨-, hf, h⟩ | ⟨-, hf, h⟩ | ⟨-, hf, h⟩ <;>
      simp only [hf, h, and_true, and_false, iff_false] <;> omega
  refine ⟨hfour, hpart.trans and_left_comm, ?_⟩
  rcases decoder_rcnt_cases s.params s.arch hi with ⟨-, -, h⟩ | ⟨-, -, h⟩ | ⟨-, -, h⟩ <;> omega

/-- In ACTIVE '=' and DEC_END answer with the flushed bytes alone. -/
theorem responsesTo_flush (s : State) {S : Arch} {i : Instr} (hi : i = .decChar 0x3D ∨ i = .decEnd) (hd : S.dstate = .active) :
    responsesTo { s with arch := S } [i] =
      [respond .ok (S.n.toNat - 1) (decodedWord (pendingTuple S) (S.n.toNat - 1))] := by
  rw [responsesTo_singleton]
  rcases hi with rfl | rfl
  · rw [show (0x3D : Byte) = padChar from rfl, effect_decChar_padChar _ hd, terminated_eq]
  · rw [effect_decEnd_of_active _ hd, terminated_eq]

/-- One byte of a group is its quotient by 2^16. -/
theorem decodedWord_one_congr {a b : Nat} (h : a / 65536 = b / 65536) : decodedWord a 1 = decodedWord b 1 := by
  simp [decodedWord, h]

/-- Two bytes of a group are its quotient by 2^8. -/
theorem decodedWord_two_congr {a b : Nat} (h : a / 256 = b / 256) : decodedWord a 2 = decodedWord b 2 := by
  have hfirst : a / 65536 = b / 65536 := by omega
  simp [decodedWord, h, hfirst]

/-- Settles O49: the bytes of a flush are quotients in which the low bits of the last index do not show. -/
theorem discardedLowBitsAreNotChecked : Obligations.DiscardedLowBitsAreNotChecked := fun s t0 t1 t1' t2 t2' i hi => by
  refine ⟨fun h => ?_, fun h => ?_⟩ <;> rw [responsesTo_flush s hi rfl, responsesTo_flush s hi rfl]
  · have hbyte : decodedWord (pendingTuple ⟨.active, 2, t0, t1, t2⟩) 1 = decodedWord (pendingTuple ⟨.active, 2, t0, t1', t2⟩) 1 :=
      decodedWord_one_congr (by simp [pendingTuple]; omega)
    exact congrArg (fun data => [respond .ok 1 data]) hbyte
  · have hbytes : decodedWord (pendingTuple ⟨.active, 3, t0, t1, t2⟩) 2 = decodedWord (pendingTuple ⟨.active, 3, t0, t1, t2'⟩) 2 :=
      decodedWord_two_congr (by simp [pendingTuple]; omega)
    exact congrArg (fun data => [respond .ok 2 data]) hbytes

/-! ## A decode operation: its verdict and its result (R127) -/

/-- The response to the DEC_END that follows the characters of a text, from `S` on. -/
def verdict (p : Params) (S : Arch) (text : List Byte) : Response :=
  (effect p (effects p S (charCommands text)).1 .decEnd).2

/-- What the rest of an operation yields, from `S` on: the bytes of its characters and of its DEC_END, unless the verdict is
INVALID_CHAR. -/
def operationResult (p : Params) (S : Arch) (text : List Byte) : Option (List Byte) :=
  if (verdict p S text).rst = .invalidChar then none
  else some (streamOutput (effects p S (charCommands text)).2 ++ (verdict p S text).stream)

/-- The verdict is the last response of an operation. -/
theorem responsesTo_decodeCommands_eq_append (s : State) (text : List Byte) : responsesTo s (decodeCommands text) =
    responsesTo s (.decStart :: charCommands text) ++ [verdict s.params (emptyArch .active) text] := by
  rw [responsesTo_eq, responsesTo_eq, decodeCommands, effects_append]
  rfl

theorem streamOutput_concat (rs : List Response) (r : Response) : streamOutput (rs ++ [r]) = streamOutput rs ++ r.stream := by
  simp [streamOutput]

theorem hostDecode_eq_operationResult (s : State) (text : List Byte) :
    hostDecode s text = operationResult s.params (emptyArch .active) text := by
  have hopen : streamOutput (responsesTo s (.decStart :: charCommands text)) =
      streamOutput (effects s.params (emptyArch .active) (charCommands text)).2 := by
    rw [responsesTo_eq]; rfl
  simp only [hostDecode, operationResult, responsesTo_decodeCommands_eq_append, List.getLast?_concat, Option.map_some,
    Option.some.injEq, streamOutput_concat, hopen]

/-- DEC_END reports INVALID_CHAR in FAIL and nowhere else. -/
theorem effect_decEnd_invalidChar_iff (p : Params) (S : Arch) : (effect p S .decEnd).2.rst = .invalidChar ↔ S.dstate = .fail := by
  cases hd : S.dstate with
  | active => rw [effect_decEnd_of_active p hd, terminated_eq]; simp
  | idle | done | fail => simp [effect, hd]

/-- A character leaves FAIL where it was FAIL before, or where it is answered INVALID_CHAR. -/
theorem effect_decChar_fail_iff (p : Params) (S : Arch) (c : Byte) : (effect p S (.decChar c)).1.dstate = .fail ↔
    S.dstate = .fail ∨ (effect p S (.decChar c)).2.rst = .invalidChar := by
  cases hd : S.dstate with
  | idle | done | fail => simp [effect, hd]
  | active =>
    rw [effect_decChar_of_active p c hd]
    rcases scanned_cases p.nulTerminates c S with ⟨-, h⟩ | ⟨-, h⟩ | ⟨-, h⟩ | ⟨-, h⟩ <;> rw [h]
    · simp [alpha_dstate, hd, (alpha_response _ S).1]
    · simp [hd]
    · simp [terminated_eq, emptyArch]
    · simp [Arch.failed]

/-- The FAIL of an operation records that one of its characters was answered INVALID_CHAR. -/
theorem effects_charCommands_fail_iff (p : Params) (S : Arch) (text : List Byte) :
    (effects p S (charCommands text)).1.dstate = .fail ↔
      S.dstate = .fail ∨ ∃ q ∈ (effects p S (charCommands text)).2, q.rst = .invalidChar := by
  induction text generalizing S with
  | nil => simp [charCommands, effects]
  | cons c cs ih =>
    have hrest := ih (effect p S (.decChar c)).1
    rw [effect_decChar_fail_iff] at hrest
    simpa [charCommands, effects, or_assoc] using hrest

/-- Settles O59. -/
theorem verdictOfAnOperationComesAtItsEnd : Obligations.VerdictOfAnOperationComesAtItsEnd := fun s text => by
  have hresponses : responsesTo s (.decStart :: charCommands text) =
      respond .ok 0 0 :: (effects s.params (emptyArch .active) (charCommands text)).2 := responsesTo_eq ..
  refine ⟨_, responsesTo_decodeCommands_eq_append s text, ?_, fun h => ?_, fun h => ?_⟩
  · rw [verdict, effect_decEnd_invalidChar_iff, effects_charCommands_fail_iff, hresponses]
    simp [emptyArch]
  · rw [hostDecode_eq_operationResult, operationResult, if_pos h]
  · rw [hostDecode_eq_operationResult, operationResult, if_neg h, hresponses]
    rfl

/-! ## The source's scan, by the class of the next character -/

/-- PAD and TERM act alike, so that there are four kinds of characters. -/
theorem class_cases (cls : CharClass) : cls = .alpha ∨ cls = .ws ∨ (cls = .pad ∨ cls = .term) ∨ cls = .invalid := by
  cases cls <;> simp

section Scan
variable {nul : Bool} {c : Byte} (t : List Index) (cs : List Byte)

theorem sourceScan_of_alpha_full (h : (c2i nul c).cls = .alpha) (ht : t.length = 3) :
    sourceScan nul t (c :: cs) = (sourceScan nul [] cs).map (sourceBytes (t ++ [(c2i nul c).index]) ++ ·) := by
  simp [sourceScan, h, ht]

theorem sourceScan_of_alpha_not_full (h : (c2i nul c).cls = .alpha) (ht : t.length ≠ 3) :
    sourceScan nul t (c :: cs) = sourceScan nul (t ++ [(c2i nul c).index]) cs := by
  simp [sourceScan, h, ht]

theorem sourceScan_of_ws (h : (c2i nul c).cls = .ws) : sourceScan nul t (c :: cs) = sourceScan nul t cs := by
  simp [sourceScan, h]

theorem sourceScan_of_terminator (h : (c2i nul c).cls = .pad ∨ (c2i nul c).cls = .term) :
    sourceScan nul t (c :: cs) = some (sourceBytes t) := by
  rcases h with h | h <;> simp [sourceScan, h]

theorem sourceScan_of_invalid (h : (c2i nul c).cls = .invalid) : sourceScan nul t (c :: cs) = none := by
  simp [sourceScan, h]

end Scan

/-! ## The operation's result is the source's scan -/

/-- The pending indices of the accumulator, as the list the source's scan keeps. -/
def pendingIndices (S : Arch) : List Index := [S.t0, S.t1, S.t2].take S.n.toNat

theorem pendingIndices_length (S : Arch) : (pendingIndices S).length = S.n.toNat := by
  have := S.n.isLt
  simp [pendingIndices]; omega

theorem pendingIndices_length_eq_three_iff (S : Arch) : (pendingIndices S).length = 3 ↔ S.n = 3 := by
  rw [pendingIndices_length, ← BitVec.toNat_inj]; rfl

theorem pendingIndices_of_full {S : Arch} (h : S.n = 3) : pendingIndices S = [S.t0, S.t1, S.t2] := by
  simp [pendingIndices, h]

theorem pendingIndices_pushed (idx : Index) {S : Arch} (h : S.n ≠ 3) : pendingIndices (S.pushed idx) = pendingIndices S ++ [idx] := by
  rcases count_cases S.n with e | e | e | e
  · simp [pendingIndices, Arch.pushed, e]
  · simp [pendingIndices, Arch.pushed, e]
  · simp [pendingIndices, Arch.pushed, e]
  · exact absurd e h

/-- The source's tuple of the pending indices is that of the masked accumulator. -/
theorem sourceTuple_pendingIndices (S : Arch) : sourceTuple (pendingIndices S) = pendingTuple S := by
  rcases count_cases S.n with e | e | e | e <;> simp [sourceTuple, pendingIndices, pendingTuple, e]

/-- A decode response carries the source's bytes of a group when its group is the source's tuple. -/
theorem stream_emit_eq_sourceBytes {v : Group} {t : List Index} (hv : v.toNat = sourceTuple t) (ht : t.length ≤ 4) :
    (respond .ok (t.length - 1) (emit v (t.length - 1))).stream = sourceBytes t := by
  have hbytes : [extract8 v 0, extract8 v 1, extract8 v 2] =
      [sourceTuple t / 65536, sourceTuple t / 256, sourceTuple t].map (BitVec.ofNat 8) := by
    simp [← BitVec.toNat_inj, extract8_toNat, hv]
  rw [stream_emit v (by omega), hbytes, sourceBytes]

/-- A flush yields the source's bytes of the pending indices (R121). -/
theorem stream_terminated (d : DState) (S : Arch) : (S.terminated d).2.stream = sourceBytes (pendingIndices S) := by
  have := S.n.isLt
  have hlen := pendingIndices_length S
  rw [← stream_emit_eq_sourceBytes (pack4_masked_toNat S |>.trans (sourceTuple_pendingIndices S).symm) (by omega), hlen]
  rfl

/-- A completed group yields the source's bytes of its four indices (R119). -/
theorem stream_alpha_of_full {S : Arch} (idx : Index) (h : S.n = 3) :
    (S.alpha idx).2.stream = sourceBytes (pendingIndices S ++ [idx]) := by
  rw [pendingIndices_of_full h, Arch.alpha, if_pos h]
  exact stream_emit_eq_sourceBytes (t := [S.t0, S.t1, S.t2, idx]) (pack4_toNat ..) le_rfl

theorem operationResult_nil (p : Params) {S : Arch} (h : S.dstate = .active) :
    operationResult p S [] = some (sourceBytes (pendingIndices S)) := by
  have hverdict : verdict p S [] = (S.terminated .idle).2 := congrArg Prod.snd (effect_decEnd_of_active p h)
  have hok : (S.terminated .idle).2.rst ≠ .invalidChar := by simp [terminated_eq]
  rw [operationResult, hverdict, if_neg hok, stream_terminated]
  rfl

/-- A character adds the bytes of its response to what the rest of the operation yields. -/
theorem operationResult_cons (p : Params) (S : Arch) (c : Byte) (cs : List Byte) : operationResult p S (c :: cs) =
    (operationResult p (effect p S (.decChar c)).1 cs).map ((effect p S (.decChar c)).2.stream ++ ·) := by
  have hverdict : verdict p S (c :: cs) = verdict p (effect p S (.decChar c)).1 cs := rfl
  rw [operationResult, operationResult, hverdict]
  split_ifs
  · rfl
  · simp [charCommands, effects, streamOutput]

/-- After a terminator an operation yields nothing more (R124). -/
theorem operationResult_of_done (p : Params) {S : Arch} (h : S.dstate = .done) (text : List Byte) :
    operationResult p S text = some [] := by
  induction text with
  | nil => simp [operationResult, verdict, charCommands, effects, streamOutput, effect_decEnd_of_done p h]
  | cons c cs ih => simp [operationResult_cons, effect_decChar_of_done p c h, ih]

/-- A failed operation stays failed (R123). -/
theorem operationResult_of_fail (p : Params) {S : Arch} (h : S.dstate = .fail) (text : List Byte) :
    operationResult p S text = none := by
  rw [operationResult, if_pos]
  rw [verdict, effect_decEnd_invalidChar_iff, effects_charCommands_fail_iff]
  exact .inl h

/-- From ACTIVE on, an operation yields what the source's scan does with the indices that are pending. -/
theorem operationResult_eq_sourceScan (p : Params) {S : Arch} (h : S.dstate = .active) (text : List Byte) :
    operationResult p S text = sourceScan p.nulTerminates (pendingIndices S) text := by
  induction text generalizing S with
  | nil => rw [operationResult_nil p h]; rfl
  | cons c cs ih =>
    rw [operationResult_cons, effect_decChar_of_active p c h]
    rcases scanned_cases p.nulTerminates c S with ⟨hc, he⟩ | ⟨hc, he⟩ | ⟨hc, he⟩ | ⟨hc, he⟩ <;> rw [he]
    · have hactive : (S.alpha (c2i p.nulTerminates c).index).1.dstate = .active := (alpha_dstate ..).trans h
      rw [ih hactive]
      by_cases hn : S.n = 3
      · rw [stream_alpha_of_full _ hn, sourceScan_of_alpha_full _ _ hc ((pendingIndices_length_eq_three_iff S).2 hn),
          alpha_eq_of_full _ hn]
        rfl
      · rw [sourceScan_of_alpha_not_full _ _ hc (mt (pendingIndices_length_eq_three_iff S).1 hn), alpha_eq_of_not_full _ hn,
          pendingIndices_pushed _ hn]
        simp
    · rw [ih h, sourceScan_of_ws _ _ hc]
      simp
    · rw [operationResult_of_done p rfl, stream_terminated, sourceScan_of_terminator _ _ hc]
      simp
    · rw [operationResult_of_fail p rfl, sourceScan_of_invalid _ _ hc]
      rfl

/-- A host's decode is the source's, from any state (R132). -/
theorem hostDecode_eq_sourceDecode (s : State) (text : List Byte) : hostDecode s text = sourceDecode s.params.nulTerminates text := by
  rw [hostDecode_eq_operationResult, operationResult_eq_sourceScan _ rfl]
  rfl

/-! ## What the source's scan yields -/

section BeforeTerminator
variable {nul : Bool} {c : Byte} (cs : List Byte)

theorem beforeTerminator_of_terminator (h : (c2i nul c).cls = .pad ∨ (c2i nul c).cls = .term) :
    beforeTerminator nul (c :: cs) = [] := by
  rcases h with h | h <;> simp [beforeTerminator, h]

theorem beforeTerminator_of_not_terminator (h : ¬((c2i nul c).cls = .pad ∨ (c2i nul c).cls = .term)) :
    beforeTerminator nul (c :: cs) = c :: beforeTerminator nul cs := by
  obtain ⟨hpad, hterm⟩ := not_or.1 h
  simp [beforeTerminator, hpad, hterm]

end BeforeTerminator

theorem alphaCount_cons (nul : Bool) (c : Byte) (cs : List Byte) :
    alphaCount nul (c :: cs) = alphaCount nul cs + if (c2i nul c).cls = .alpha then 1 else 0 := by
  simp [alphaCount, List.countP_cons]

/-- The scan fails exactly when an invalid character comes before the first terminator. -/
theorem sourceScan_eq_none_iff (nul : Bool) (t : List Index) (text : List Byte) :
    sourceScan nul t text = none ↔ ∃ c ∈ beforeTerminator nul text, (c2i nul c).cls = .invalid := by
  induction text generalizing t with
  | nil => simp [sourceScan, beforeTerminator]
  | cons c cs ih =>
    rcases class_cases (c2i nul c).cls with hc | hc | hc | hc
    · rw [beforeTerminator_of_not_terminator cs (by simp [hc])]
      by_cases ht : t.length = 3
      · simp [sourceScan_of_alpha_full t cs hc ht, ih, hc]
      · simp [sourceScan_of_alpha_not_full t cs hc ht, ih, hc]
    · rw [beforeTerminator_of_not_terminator cs (by simp [hc])]
      simp [sourceScan_of_ws t cs hc, ih, hc]
    · simp [sourceScan_of_terminator t cs hc, beforeTerminator_of_terminator cs hc]
    · rw [beforeTerminator_of_not_terminator cs (by simp [hc])]
      simp [sourceScan_of_invalid t cs hc, hc]

/-- How many bytes `n` indices decode to: three for each full group, and one less than there are indices in the rest (R115). -/
def decodedLength (n : Nat) : Nat := 3 * (n / 4) + (n % 4 - 1)

theorem sourceBytes_length {t : List Index} (h : t.length ≤ 4) : (sourceBytes t).length = t.length - 1 := by
  simp [sourceBytes]; omega

theorem sourceBytes_length_eq_decodedLength {t : List Index} (h : t.length ≤ 3) : (sourceBytes t).length = decodedLength t.length := by
  rw [sourceBytes_length (by omega), decodedLength]; omega

/-- The scan yields the bytes of all indices before the first terminator, those that were pending among them. -/
theorem sourceScan_length {nul : Bool} {t : List Index} {text out : List Byte} (ht : t.length ≤ 3)
    (h : sourceScan nul t text = some out) :
    out.length = decodedLength (t.length + alphaCount nul (beforeTerminator nul text)) := by
  induction text generalizing t out with
  | nil => cases h; exact sourceBytes_length_eq_decodedLength ht
  | cons c cs ih =>
    rcases class_cases (c2i nul c).cls with hc | hc | hc | hc
    · rw [beforeTerminator_of_not_terminator cs (by simp [hc]), alphaCount_cons, if_pos hc]
      by_cases hfull : t.length = 3
      · rw [sourceScan_of_alpha_full t cs hc hfull, Option.map_eq_some_iff] at h
        obtain ⟨rest, hrest, rfl⟩ := h
        have hgroup : (sourceBytes (t ++ [(c2i nul c).index])).length = 3 := by
          rw [sourceBytes_length] <;> simp [hfull]
        rw [List.length_append, hgroup, ih (t := []) (Nat.zero_le 3) hrest, hfull]
        simp only [decodedLength, List.length_nil]
        omega
      · rw [sourceScan_of_alpha_not_full t cs hc hfull] at h
        rw [ih (by simp; omega) h, List.length_append, List.length_singleton]
        congr 1
        omega
    · rw [sourceScan_of_ws t cs hc] at h
      rw [beforeTerminator_of_not_terminator cs (by simp [hc]), alphaCount_cons, if_neg (by simp [hc])]
      exact ih ht h
    · rw [sourceScan_of_terminator t cs hc] at h
      cases h
      rw [beforeTerminator_of_terminator cs hc]
      exact sourceBytes_length_eq_decodedLength ht
    · rw [sourceScan_of_invalid t cs hc] at h
      cases h

/-- Settles O56: the operation's result is the source's scan, whose failure and length are read off the text. -/
theorem hostDecodeIsTheSourcesDecode : Obligations.HostDecodeIsTheSourcesDecode := fun s text => by
  rw [hostDecode_eq_sourceDecode]
  refine ⟨rfl, sourceScan_eq_none_iff _ [] text, fun out hout => ?_⟩
  simpa [decodedLength] using sourceScan_length (t := []) (Nat.zero_le 3) hout

/-- The source's scan passes over whitespace. -/
theorem sourceScan_filter_ws (nul : Bool) (t : List Index) (text : List Byte) :
    sourceScan nul t (text.filter fun c => !((c2i nul c).cls == .ws)) = sourceScan nul t text := by
  induction text generalizing t with
  | nil => rfl
  | cons c cs ih =>
    by_cases hc : (c2i nul c).cls = .ws
    · rw [List.filter_cons_of_neg (by simp [hc]), ih, sourceScan_of_ws t cs hc]
    · rw [List.filter_cons_of_pos (by simp [hc])]
      simp only [sourceScan, ih]

/-- R133's example, for both values of `NUL_TERMINATES`. -/
theorem sourceDecode_example (nul : Bool) :
    sourceDecode nul [0x54, 0x57, 0x46, 0x75, 0x3D, 0x3D, 0x3D, 0x3D, 0x58, 0x59, 0x5A] = some [0x4D, 0x61, 0x6E] := by
  revert nul; decide

/-- Settles O58. -/
theorem whitespaceDoesNotChangeTheResult : Obligations.WhitespaceDoesNotChangeTheResult := by
  refine ⟨fun s text => ?_, fun s => ?_, fun s => ?_⟩
  · rw [hostDecode_eq_sourceDecode, hostDecode_eq_sourceDecode]
    exact sourceScan_filter_ws _ [] text
  · rw [hostDecode_eq_sourceDecode]; rfl
  · rw [hostDecode_eq_sourceDecode]; exact sourceDecode_example _

/-! ## Streams of words, and the words that do not bear on the decoder (R130) -/

/-- S' and the responses of a stream of words. -/
def wordEffects (p : Params) (S : Arch) : List Word → Arch × List Response
  | [] => (S, [])
  | w :: ws => ((wordEffects p (wordEffect p S w).1 ws).1, (wordEffect p S w).2 :: (wordEffects p (wordEffect p S w).1 ws).2)

/-- A stream of words changes S and adds one response for each; nothing else. -/
theorem afterWords_eq (s : State) (ws : List Word) : afterWords s ws = { s with
    arch := (wordEffects s.params s.arch ws).1
    inFlight := s.inFlight ++ (wordEffects s.params s.arch ws).2.map fun r => ⟨r, s.params.rspLatency - 1⟩ } := by
  induction ws generalizing s with
  | nil => simp [afterWords, wordEffects]
  | cons w ws ih =>
    have hcons : afterWords s (w :: ws) = afterWords (s.afterWord w) ws := rfl
    rw [hcons, ih, afterWord_eq]
    simp [wordEffects, State.complete]

theorem afterWords_arch (s : State) (ws : List Word) : (afterWords s ws).arch = (wordEffects s.params s.arch ws).1 := by
  rw [afterWords_eq]

theorem wordResponses_eq (s : State) (ws : List Word) : wordResponses s ws = (wordEffects s.params s.arch ws).2 := by
  simp [wordResponses, afterWords_eq, Function.comp_def]

/-- Whitespace leaves S as it is, in every DSTATE (R120, R124). -/
theorem effect_decChar_arch_of_ws (p : Params) (S : Arch) {c : Byte} (h : (c2i p.nulTerminates c).cls = .ws) :
    (effect p S (.decChar c)).1 = S := by
  cases hd : S.dstate with
  | idle | done | fail => simp [effect, hd]
  | active => rw [effect_decChar_of_active p c hd, scanned_of_ws S h]

/-- A word that does not bear on the decoder leaves S as it is. -/
theorem wordEffect_arch_of_interleavable (p : Params) (S : Arch) {w : Word} (h : interleavable p.nulTerminates w = true) :
    (wordEffect p S w).1 = S := by
  cases hd : decode w with
  | error e => rw [wordEffect_of_error p S hd]
  | ok i =>
    rw [wordEffect_of_ok p S hd]
    cases i with
    | nop => rfl
    | query => rfl
    | encGroup cnt b0 b1 b2 => rw [effect_encGroup]
    | decChar c => exact effect_decChar_arch_of_ws p S (by simpa [interleavable, hd] using h)
    | decStart | decEnd => simp [interleavable, hd] at h

/-- Leaving those words out gives the same S, and the responses of the words that stay. -/
theorem wordEffects_filter (p : Params) (S : Arch) (ws : List Word) :
    wordEffects p S (ws.filter fun w => !interleavable p.nulTerminates w) =
      ((wordEffects p S ws).1,
        ((ws.zip (wordEffects p S ws).2).filter fun q => !interleavable p.nulTerminates q.1).map Prod.snd) := by
  induction ws generalizing S with
  | nil => rfl
  | cons w ws ih =>
    cases hw : interleavable p.nulTerminates w with
    | true => simp [wordEffects, hw, ih, wordEffect_arch_of_interleavable p S hw]
    | false => simp [wordEffects, hw, ih]

/-- Settles O60. -/
theorem interleavedWordsDoNotBearOnTheDecoder : Obligations.InterleavedWordsDoNotBearOnTheDecoder := fun s ws => by
  rw [afterWords_arch, afterWords_arch, wordResponses_eq, wordResponses_eq, wordEffects_filter]
  exact ⟨rfl, rfl⟩

end Sys2Proof.Proofs
end

section
/-!
PROOFS. The family of spec/42_control.md: NOP (R140) and QUERY (R141), which change nothing.
-/

namespace Sys2Proof.Proofs

open Sys2Proof Sys2Proof.Machine Sys2Proof.Stated Sys2Proof.Laws

/-! ## NOP -/

theorem answers_nop (s : State) : Answers .nop s s.arch .ok 0 0 := answers_of_effect rfl

/-- The opcode 0x0 is NOP's alone (R72). -/
theorem eq_nop_of_opField_encode {i : Instr} (h : opField (encode i) = 0) : i = .nop := by
  cases i with
  | nop => rfl
  | encGroup | decStart | decChar | decEnd | query => simp [encode] at h

theorem opField_eq_zero_of_lt {w : Word} (h : w.toNat < 2 ^ 28) : opField w = 0 :=
  BitVec.eq_of_toNat_eq ((opField_toNat w).trans (Nat.div_eq_of_lt h))

/-- A word with OP = 0x0 that is a command is NOP's one word, which has no bit set (R75, R80). -/
theorem eq_zero_of_decode_ok {w : Word} {i : Instr} (hop : opField w = 0) (h : decode w = .ok i) : w = 0 := by
  obtain ⟨-, rfl⟩ := decode_eq_ok_iff.1 h
  obtain rfl := eq_nop_of_opField_encode hop
  rfl

/-- Settles O25: a word below 2^28 has OP = 0x0, and no other than NOP's is a command. -/
theorem nopDoesNothing : Obligations.NopDoesNothing := by
  refine ⟨answers_nop, decode_encode (i := .nop) rfl, fun w hlt hne => ?_⟩
  cases hd : decode w with
  | ok i => exact absurd (eq_zero_of_decode_ok (opField_eq_zero_of_lt hlt) hd) hne
  | error e => exact ⟨e, rfl⟩

/-! ## QUERY -/

theorem effect_query (p : Params) (S : Arch) : effect p S .query = (S, respond .ok 0 (statusView p.nulTerminates S)) := rfl

theorem answers_query (s : State) : Answers .query s s.arch .ok 0 (statusView s.params.nulTerminates s.arch) :=
  answers_of_effect (effect_query s.params s.arch)

/-- The second of two QUERYs finds the S that the first one found, so that it answers the same. -/
theorem responsesTo_query_query (s : State) : responsesTo s [.query, .query] =
    [respond .ok 0 (statusView s.params.nulTerminates s.arch), respond .ok 0 (statusView s.params.nulTerminates s.arch)] := by
  simp only [responsesTo_eq, effects, effect_query]

/-- At reset every field of STATUS is 0 but NULT (R31, R34). -/
theorem statusView_reset (nul : Bool) : statusView nul Arch.reset = if nul = true then 0x00000100 else 0x00000000 := by
  cases nul <;> rfl

/-- Settles O27. -/
theorem queryHasNoSideEffect : Obligations.QueryHasNoSideEffect := by
  refine ⟨fun s => ⟨answers_query s, _, responsesTo_query_query s⟩, fun p => ?_, decode_encode (i := .query) rfl⟩
  rw [responsesTo_singleton, effect_query, State.resetWith_arch, State.resetWith_params, statusView_reset]
  rfl

end Sys2Proof.Proofs
end

section
/-!
PROOFS. The family of spec/60_exceptions.md: the order in which a word's status is decided (R156), that every status is precise (R158), and the ways
out of FAIL (R155).
-/

namespace Sys2Proof.Proofs

open Sys2Proof Sys2Proof.Machine Sys2Proof.Stated Sys2Proof.Laws

/-! ## The order of the checks -/

/-- In ACTIVE the class of the character decides the status, and only INVALID is an error (R152). -/
theorem scanned_rst (nul : Bool) (c : Byte) (S : Arch) :
    (S.scanned nul c).2.rst = if (c2i nul c).cls = .invalid then .invalidChar else .ok := by
  rcases scanned_cases nul c S with ⟨hc, h⟩ | ⟨hc, h⟩ | ⟨hc | hc, h⟩ | ⟨hc, h⟩ <;> rw [h, hc]
  · exact (alpha_response _ S).1
  all_goals rfl

/-- Settles O23: DSTATE is looked at first, and in ACTIVE the class of the character. -/
theorem statusFollowsThePriorityOfChecks : Obligations.StatusFollowsThePriorityOfChecks := fun s w => by
  refine ⟨_, responds_wordEffect s w, ?_⟩
  cases hw : decode w with
  | error e => rw [wordEffect_of_error _ _ hw]; rfl
  | ok i =>
    rw [wordEffect_of_ok _ _ hw]
    cases i with
    | nop | decStart | query => rfl
    | encGroup cnt b0 b1 b2 =>
      obtain ⟨hwf, -⟩ := decode_eq_ok_iff.1 hw
      exact (effect_encGroup_response _ _ _ _ _ (encGroup_wellFormed_iff.1 hwf)).2
    | decChar c =>
      cases hd : s.arch.dstate with
      | idle => simp [effect_decChar_of_idle _ c hd]
      | done => simp [effect_decChar_of_done _ c hd]
      | fail => simp [effect_decChar_of_fail _ c hd]
      | active =>
        rw [effect_decChar_of_active _ c hd, scanned_rst]
        by_cases hc : (c2i s.params.nulTerminates c).cls = .invalid <;> simp [hc]
    | decEnd =>
      cases hd : s.arch.dstate with
      | idle => simp [effect_decEnd_of_idle _ hd]
      | done => simp [effect_decEnd_of_done _ hd]
      | fail => simp [effect_decEnd_of_fail _ hd]
      | active => simp [effect_decEnd_of_active _ hd, terminated_eq]

/-! ## Every status is precise -/

/-- A word has one response. -/
theorem eq_wordEffect_of_responds {s : State} {w : Word} {r : Response} (h : Responds s w r) :
    r = (wordEffect s.params s.arch w).2 := by
  have hresp := h.symm.trans (responds_wordEffect s w)
  simpa using hresp

/-- A command is answered OK, or changes nothing, or fails with INVALID_CHAR: then it leaves FAIL with nothing pending (R123), or it is the DEC_END
that closes a failed operation (R125). -/
theorem effect_status_cases (p : Params) (S : Arch) (i : Instr) :
    (effect p S i).2.rst = .ok ∨
    ((effect p S i).2.rst ≠ .invalidChar ∧ (effect p S i).1 = S) ∨
    ((effect p S i).2.rst = .invalidChar ∧
      ((effect p S i).1 = emptyArch .fail ∨ (i = .decEnd ∧ (effect p S i).1 = { S with dstate := .idle }))) := by
  cases i with
  | nop | decStart | query => exact .inl rfl
  | encGroup cnt b0 b1 b2 =>
    by_cases hcnt : cnt = 0
    · exact .inr (.inl (by simp [effect, hcnt]))
    · exact .inl (effect_encGroup_response p S b0 b1 b2 hcnt).2
  | decChar c =>
    cases hd : S.dstate with
    | idle | done | fail => exact .inr (.inl (by simp [effect, hd]))
    | active =>
      rw [effect_decChar_of_active p c hd]
      by_cases hc : (c2i p.nulTerminates c).cls = .invalid
      · rw [scanned_of_invalid S hc]
        exact .inr (.inr ⟨rfl, .inl rfl⟩)
      · exact .inl (by rw [scanned_rst, if_neg hc])
  | decEnd =>
    cases hd : S.dstate with
    | idle => exact .inr (.inl (by simp [effect_decEnd_of_idle p hd]))
    | active => exact .inl (by rw [effect_decEnd_of_active p hd, terminated_eq]; rfl)
    | done => exact .inl (by rw [effect_decEnd_of_done p hd]; rfl)
    | fail => exact .inr (.inr (by simp [effect_decEnd_of_fail p hd]))

/-- The same of a word: an ILLEGAL one changes nothing (R151). -/
theorem wordEffect_status_cases (p : Params) (S : Arch) (w : Word) :
    (wordEffect p S w).2.rst = .ok ∨
    ((wordEffect p S w).2.rst ≠ .invalidChar ∧ (wordEffect p S w).1 = S) ∨
    ((wordEffect p S w).2.rst = .invalidChar ∧ ((wordEffect p S w).1 = emptyArch .fail ∨
      (decode w = .ok .decEnd ∧ (wordEffect p S w).1 = { S with dstate := .idle }))) := by
  cases hw : decode w with
  | error e => exact .inr (.inl (by simp [wordEffect_of_error p S hw]))
  | ok i => simpa [wordEffect_of_ok p S hw] using effect_status_cases p S i

/-! ## The ways out of FAIL -/

/-- From FAIL only DEC_START and DEC_END lead on, and DEC_END reports the failure. -/
theorem wordEffect_leaves_fail (p : Params) {S : Arch} {w : Word} (hd : S.dstate = .fail)
    (h : (wordEffect p S w).1.dstate ≠ .fail) :
    decode w = .ok .decStart ∨ (decode w = .ok .decEnd ∧ (wordEffect p S w).2 = respond .invalidChar 0 0) := by
  cases hw : decode w with
  | error e => exact absurd hd (by simpa [wordEffect_of_error p S hw] using h)
  | ok i =>
    rw [wordEffect_of_ok p S hw] at h ⊢
    cases i with
    | nop | query => exact absurd hd h
    | encGroup cnt b0 b1 b2 => exact absurd hd (by simpa [effect_encGroup] using h)
    | decStart => exact .inl rfl
    | decChar c => exact absurd hd (by simpa [effect_decChar_of_fail p c hd] using h)
    | decEnd => exact .inr ⟨rfl, by rw [effect_decEnd_of_fail p hd]⟩

/-- A step out of FAIL is a reset, or accepts a word whose own effect leaves FAIL. -/
theorem step_leaves_fail {s t : State} (hd : s.arch.dstate = .fail) (h : step s = .next t) (ht : t.arch.dstate ≠ .fail) :
    s.nextCycle.rst = true ∨ ∃ w, s.acceptedWord = some w ∧ (wordEffect s.params s.arch w).1.dstate ≠ .fail ∧
      t.responses = s.responses ++ [(wordEffect s.params s.arch w).2] := by
  rcases step_cases h with ⟨hrst, -, -⟩ | ⟨-, -, -, ⟨held, rfl⟩, -⟩ | ⟨-, -, hw, -, rfl⟩
  · exact .inl hrst
  · exact absurd hd (by simpa using ht)
  · exact .inr ⟨_, hw, by simpa using ht, by simp⟩

/-- Settles O24: a word has the effect that its status says, and only three effects lead out of FAIL. -/
theorem statusesArePreciseAndFailIsTheOnlyRecord : Obligations.StatusesArePreciseAndFailIsTheOnlyRecord := by
  refine ⟨fun s w r hr => ?_, fun s t hd h ht => ?_⟩
  · obtain rfl := eq_wordEffect_of_responds hr
    rw [afterWord_eq, State.complete_arch]
    rcases wordEffect_status_cases s.params s.arch w with hst | ⟨hst, harch⟩ | ⟨hst, harch⟩
    · simp [hst]
    · exact ⟨fun _ => harch, fun hinv => absurd hinv hst⟩
    · exact ⟨by simp [hst], fun _ => harch⟩
  · refine (step_leaves_fail hd h ht).imp_right fun ⟨w, hw, heff, hresp⟩ => ⟨w, hw, ?_⟩
    exact (wordEffect_leaves_fail s.params hd heff).imp_right fun ⟨hend, hr⟩ => ⟨hend, by rw [hresp, hr]; rfl⟩

end Sys2Proof.Proofs
end

section
/-!
PROOFS. The family of spec/70_reset_and_hazards.md: edges with `rst` = 1 (R170), and the classification of characters over a run (R179).
-/

namespace Sys2Proof.Proofs

open Sys2Proof Sys2Proof.Machine Sys2Proof.Stated Sys2Proof.Laws

/-! ## Edges with `rst` = 1 -/

theorem step_of_inputs_rst {s : State} {c : Cycle} {rest : List Cycle} (hin : s.inputs = c :: rest) (hc : c.rst = true) :
    step s = .next { State.resetWith s.params with inputs := rest } := by
  have hedge : s.nextCycle.rst = true := by rw [nextCycle_of_inputs hin, hc]
  rw [step_of_rst hedge, hin, List.tail_cons]

/-- From the state after reset, further edges with `rst` = 1 only use up the schedule. -/
theorem runCycles_rst_of_resetWith (p : Params) {cs : List Cycle} (rest : List Cycle) (hcs : ∀ c ∈ cs, c.rst = true) :
    runCycles cs.length { State.resetWith p with inputs := cs ++ rest } = .next { State.resetWith p with inputs := rest } := by
  induction cs with
  | nil => rfl
  | cons c cs ih =>
    obtain ⟨hc, hcs⟩ := List.forall_mem_cons.1 hcs
    exact runCycles_succ_eq_next.2 ⟨_, step_of_inputs_rst rfl hc, ih hcs⟩

/-- One or more edges with `rst` = 1 lead to the state after reset, from every state: the first one does, and the others stay there. -/
theorem runCycles_rst {s : State} {cs rest : List Cycle} (hne : cs ≠ []) (hcs : ∀ c ∈ cs, c.rst = true)
    (hin : s.inputs = cs ++ rest) : runCycles cs.length s = .next { State.resetWith s.params with inputs := rest } := by
  cases cs with
  | nil => exact absurd rfl hne
  | cons c cs =>
    obtain ⟨hc, hcs⟩ := List.forall_mem_cons.1 hcs
    exact runCycles_succ_eq_next.2 ⟨_, step_of_inputs_rst hin hc, runCycles_rst_of_resetWith s.params rest hcs⟩

/-! ## A channel with nothing in flight -/

theorem rspValid_of_inFlight_nil {s : State} (c : Cycle) (h : s.inFlight = []) : s.rspValid c = false := by
  simp [State.rspValid, State.offered, h]

theorem served_inFlight_nil {s : State} (c : Cycle) (h : s.inFlight = []) : (s.served c).inFlight = [] :=
  List.eq_nil_of_length_eq_zero (by simp [served_inFlight_length, h])

/-- Only an accepted command puts a response in flight. -/
theorem step_keeps_inFlight_nil {s t : State} (h : step s = .next t) (hs : s.inFlight = []) (hw : s.acceptedWord = none) :
    t.inFlight = [] := by
  rcases step_cases h with ⟨-, -, rfl⟩ | ⟨-, -, -, ⟨held, rfl⟩, -⟩ | ⟨-, -, hsome, -, -⟩
  · rfl
  · rw [afterCycle_inFlight, served_inFlight_nil s.nextCycle hs]
  · simp [hsome] at hw

/-- Settles O2: reset edges lead to the state after reset, and from there only an accepted command has a response. -/
theorem resetEdgesLeaveResetStateAndNoResponse : Obligations.ResetEdgesLeaveResetStateAndNoResponse :=
  ⟨fun _ _ _ hne hcs hin => ⟨_, runCycles_rst hne hcs hin, rfl, rfl, rfl, rfl, fun _ => rfl⟩,
    fun s _ => cmdReady_of_rst s,
    fun _ c => rspValid_of_inFlight_nil c,
    fun _ _ hs h hw => step_keeps_inFlight_nil h hs hw⟩

/-! ## The classification of characters -/

theorem runCycles_params {n : Nat} {s t : State} (h : runCycles n s = .next t) : t.params = s.params := by
  induction n generalizing s with
  | zero => cases h; rfl
  | succ n ih =>
    obtain ⟨u, hu, ht⟩ := runCycles_succ_eq_next.1 h
    exact (ih ht).trans (step_params hu)

/-- Settles O13: a character's class and index depend on the parameters alone, which every step keeps. -/
theorem classificationNeverChanges : Obligations.ClassificationNeverChanges := fun _ _ _ h =>
  ⟨runCycles_params h, fun _ => by rw [runCycles_params h]⟩

end Sys2Proof.Proofs
end

section
/-!
PROOFS. The machine as a whole: decoding and encoding (R70 to R73), the invariant at reset and under every step (R22, R32, R53, R57), the form of a
response (R57, R31), and the frame of a command (R60).
-/

namespace Sys2Proof.Proofs

open Sys2Proof Sys2Proof.Machine Sys2Proof.Stated Sys2Proof.Laws

/-! ## Decoding and encoding -/

/-- Settles O14. -/
theorem decodeOfEncodeIsTheCommand : Obligations.DecodeOfEncodeIsTheCommand := fun _ => decode_encode

/-- Settles O15. -/
theorem encodeOfDecodeIsTheWord : Obligations.EncodeOfDecodeIsTheWord := fun _ _ => decode_eq_ok_iff.1

/-- Settles O17: each word is the encoding of its command. -/
theorem sampleWordsDecodeToTheirCommands : Obligations.SampleWordsDecodeToTheirCommands :=
  ⟨decode_encode (i := .nop) rfl, decode_encode (i := .encGroup 3 0x4D 0x61 0x6E) rfl,
    decode_encode (i := .encGroup 2 0x4D 0x61 0xFF) rfl, decode_encode (i := .decStart) rfl,
    decode_encode (i := .decChar 0x75) rfl, decode_encode (i := .decEnd) rfl, decode_encode (i := .query) rfl⟩

/-- Settles O29: no word encodes the term, since the word with its fields is rejected for its count. -/
theorem encGroupOfNoBytesIsIllegal : Obligations.EncGroupOfNoBytesIsIllegal := fun _ _ _ _ =>
  ⟨answers_of_effect (effect_encGroup ..), _, decode_assembleWord ..⟩

/-! ## The form of a response -/

/-- RCNT is at most 4, every lane at or beyond it is zero, and an error comes with no data: what `Response.Inv` says, with the lanes of a response
without stream bytes zero too. QUERY's is the one response that is not of this form. -/
structure Padded (r : Response) : Prop where
  count_le : r.rcnt.toNat ≤ 4
  lanes_zero : ∀ k : Fin 4, r.rcnt.toNat ≤ k.val → lane r.rdata k = 0
  error_empty : r.rst ≠ .ok → r.rcnt = 0 ∧ r.rdata = 0

theorem Padded.inv {r : Response} (h : Padded r) : r.Inv := ⟨h.count_le, fun _ => h.lanes_zero, h.error_empty⟩

theorem padded_empty (st : Status) : Padded (respond st 0 0) where
  count_le := Nat.zero_le 4
  lanes_zero k _ := lane_zero k
  error_empty _ := ⟨rfl, rfl⟩

/-- A response with all four lanes in use has none beyond them. -/
theorem padded_fourLanes (data : Word) : Padded (respond .ok 4 data) where
  count_le := le_rfl
  lanes_zero k hk := absurd k.isLt (Nat.not_lt.2 hk)
  error_empty h := absurd rfl h

theorem padded_emit (v : Group) {nb : Nat} (h : nb ≤ 3) : Padded (respond .ok nb (emit v nb)) := by
  have hcnt : (respond .ok nb (emit v nb)).rcnt.toNat = nb := by rw [respond_rcnt_toNat]; omega
  refine ⟨by omega, fun k hk => ?_, fun herr => absurd rfl herr⟩
  rw [hcnt] at hk
  cases k using Fin.lastCases with
  | last => exact lane_lanes_3 ..
  | cast j => exact (lane_emit v nb j).trans (if_neg (Nat.not_lt.2 hk))

theorem padded_terminated (d : DState) (S : Arch) : Padded (S.terminated d).2 :=
  padded_emit _ (by have := S.n.isLt; unfold flushCount; omega)

theorem padded_alpha (idx : Index) (S : Arch) : Padded (S.alpha idx).2 := by
  unfold Arch.alpha
  split_ifs
  · exact padded_emit _ le_rfl
  · exact padded_empty .ok

/-- The response to every command but QUERY has zero in its unused lanes. -/
theorem padded_effect (p : Params) (S : Arch) {i : Instr} (hi : i ≠ .query) : Padded (effect p S i).2 := by
  cases i with
  | nop | decStart => exact padded_empty .ok
  | encGroup cnt b0 b1 b2 =>
    rw [effect_encGroup, encGroupResponse]
    split_ifs
    · exact padded_empty .illegalCmd
    · exact padded_fourLanes _
  | decChar c =>
    cases hd : S.dstate with
    | idle => rw [effect_decChar_of_idle p c hd]; exact padded_empty .notActive
    | done => rw [effect_decChar_of_done p c hd]; exact padded_empty .ignored
    | fail => rw [effect_decChar_of_fail p c hd]; exact padded_empty .ignored
    | active =>
      rw [effect_decChar_of_active p c hd]
      rcases scanned_cases p.nulTerminates c S with ⟨-, h⟩ | ⟨-, h⟩ | ⟨-, h⟩ | ⟨-, h⟩ <;> rw [h]
      · exact padded_alpha ..
      · exact padded_empty .ok
      · exact padded_terminated ..
      · exact padded_empty .invalidChar
  | decEnd =>
    cases hd : S.dstate with
    | idle => rw [effect_decEnd_of_idle p hd]; exact padded_empty .notActive
    | done => rw [effect_decEnd_of_done p hd]; exact padded_empty .ok
    | fail => rw [effect_decEnd_of_fail p hd]; exact padded_empty .invalidChar
    | active => rw [effect_decEnd_of_active p hd]; exact padded_terminated ..
  | query => exact absurd rfl hi

theorem padded_wordEffect (p : Params) (S : Arch) {w : Word} (hw : decode w ≠ .ok .query) : Padded (wordEffect p S w).2 := by
  cases hd : decode w with
  | error e => rw [wordEffect_of_error p S hd]; exact padded_empty .illegalCmd
  | ok i => rw [wordEffect_of_ok p S hd]; exact padded_effect p S fun hi => hw (by rw [hd, hi])

theorem wordEffect_of_query (p : Params) (S : Arch) {w : Word} (hw : decode w = .ok .query) :
    (wordEffect p S w).2 = respond .ok 0 (statusView p.nulTerminates S) := by
  rw [wordEffect_of_ok p S hw, effect_query]

/-- The response to every word has the form of the machine's invariant. -/
theorem wordEffect_response_inv (p : Params) (S : Arch) (w : Word) : (wordEffect p S w).2.Inv := by
  by_cases hw : decode w = .ok .query
  · rw [wordEffect_of_query p S hw]
    exact ⟨Nat.zero_le 4, fun h => absurd rfl h, fun h => absurd rfl h⟩
  · exact (padded_wordEffect p S hw).inv

theorem wordEffect_arch_inv (p : Params) {S : Arch} (h : S.Inv) (w : Word) : (wordEffect p S w).1.Inv := by
  cases hd : decode w with
  | error e => rwa [wordEffect_of_error p S hd]
  | ok i => rw [wordEffect_of_ok p S hd]; exact effect_inv p h i

/-! ## The machine's invariant -/

/-- With nothing in flight and nothing taken the channels are in order. -/
theorem channelInv_of_empty {s : State} (hf : s.inFlight = []) (hr : s.rspRaised = false) (ht : s.taken = []) : s.ChannelInv where
  depth_le := by simp [hf]
  wait_le := by simp [hf]
  in_order := by simp [hf]
  raised_ready := by simp [hr]
  responses_ok := by simp [hf]
  taken_ok := by simp [ht]

/-- The state after reset has the invariant, whatever cycles are to come. -/
theorem resetWith_inv {p : Params} (hp : p.WellFormed) (cycles : List Cycle) : State.Inv { State.resetWith p with inputs := cycles } where
  params_ok := hp
  arch_ok _ := reset_inv
  channel_ok _ := channelInv_of_empty rfl rfl rfl

/-- Settles O51. -/
theorem invariantHoldsAfterReset : Obligations.InvariantHoldsAfterReset :=
  ⟨resetWith_inv ⟨Nat.le_add_left .., Nat.le_add_left ..⟩ [], fun _ hp => resetWith_inv hp []⟩

/-- What an edge does to the responses in flight and taken: they come one cycle closer, and the oldest one is taken or none is. -/
theorem served_moves (s : State) (c : Cycle) :
    ((c.rspReady = false ∨ s.offered c = none) ∧
      (s.served c).inFlight = s.inFlight.map InFlight.aged ∧ (s.served c).taken = s.taken) ∨
    (∃ e rest, s.inFlight = e :: rest ∧ e.wait = 0 ∧ s.offered c = some e.rsp ∧ c.rspReady = true ∧
      (s.served c).inFlight = rest.map InFlight.aged ∧ (s.served c).taken = s.taken ++ [e.rsp]) := by
  rcases served_cases s c with ⟨ho, h⟩ | ⟨e, rest, hin, hwait, ho, hc, h⟩ | ⟨_, _, -, -, -, hc, h⟩
  · exact .inl ⟨.inr ho, by rw [h], by rw [h]⟩
  · exact .inr ⟨e, rest, hin, hwait, ho, hc, by rw [h], by rw [h]⟩
  · exact .inl ⟨.inl hc, by rw [h], by rw [h]⟩

theorem served_inFlight_suffix (s : State) (c : Cycle) :
    ∃ l, l <:+ s.inFlight ∧ (s.served c).inFlight = l.map InFlight.aged := by
  rcases served_moves s c with ⟨-, h, -⟩ | ⟨e, rest, hin, -, -, -, h, -⟩
  · exact ⟨_, List.suffix_rfl, h⟩
  · exact ⟨rest, hin ▸ List.suffix_cons e rest, h⟩

/-- A response that an edge leaves raised may be offered in the next cycle too. -/
theorem served_raised_ready {s : State} {c : Cycle} (h : (s.served c).rspRaised = true) :
    ∃ e rest, (s.served c).inFlight = e :: rest ∧ e.wait = 0 := by
  rcases served_cases s c with ⟨-, hs⟩ | ⟨_, _, -, -, -, -, hs⟩ | ⟨e, rest, hin, hwait, -, -, hs⟩
  · simp [hs] at h
  · simp [hs] at h
  · exact ⟨e.aged, rest.map InFlight.aged, by simp [hs, hin], by simp [hwait]⟩

/-- What the host has taken after an edge it had taken before, or it was in flight. -/
theorem served_taken_cases {s : State} {c : Cycle} {r : Response} (h : r ∈ (s.served c).taken) :
    r ∈ s.taken ∨ ∃ e ∈ s.inFlight, e.rsp = r := by
  rcases served_moves s c with ⟨-, -, ht⟩ | ⟨e, rest, hin, -, -, -, -, ht⟩ <;> rw [ht] at h
  · exact .inl h
  · exact (List.mem_append.1 h).imp_right fun hr => ⟨e, by simp [hin], (List.mem_singleton.1 hr).symm⟩

/-- The response side of an edge keeps the channels in order. -/
theorem served_channelInv {s : State} (h : s.ChannelInv) (c : Cycle) : (s.served c).ChannelInv := by
  obtain ⟨l, hl, hserved⟩ := served_inFlight_suffix s c
  have hmem {e : InFlight} (he : e ∈ (s.served c).inFlight) : ∃ e₀ ∈ s.inFlight, e = e₀.aged := by
    rw [hserved] at he
    obtain ⟨e₀, he₀, rfl⟩ := List.mem_map.1 he
    exact ⟨e₀, hl.subset he₀, rfl⟩
  refine ⟨?_, fun e he => ?_, ?_, served_raised_ready, fun e he => ?_, fun r hr => ?_⟩
  · rw [served_params]
    exact (served_inFlight_length_le s c).trans h.depth_le
  · obtain ⟨e₀, he₀, rfl⟩ := hmem he
    rw [served_params]
    exact (Nat.sub_le ..).trans (h.wait_le e₀ he₀)
  · rw [hserved]
    exact List.pairwise_map.2 ((h.in_order.sublist hl.sublist).imp fun hab => Nat.sub_le_sub_right hab 1)
  · obtain ⟨e₀, he₀, rfl⟩ := hmem he
    exact h.responses_ok e₀ he₀
  · rcases served_taken_cases hr with hr | ⟨e, he, rfl⟩
    · exact h.taken_ok r hr
    · exact h.responses_ok e he

/-- The schedule and the held word are no part of the response side. -/
theorem afterCycle_channelInv {s : State} (h : s.ChannelInv) (held : Option Word) : (afterCycle s held).ChannelInv := by
  obtain ⟨hdepth, hwait, horder, hraised, hrsp, htaken⟩ := served_channelInv h s.nextCycle
  rw [served_params] at hdepth hwait
  constructor <;> simpa only [afterCycle_params, afterCycle_inFlight, afterCycle_rspRaised, afterCycle_taken]

/-- A new response waits the longest, behind all the others. -/
theorem complete_channelInv {s : State} {r : Arch × Response} (h : s.ChannelInv) (hroom : s.inFlight.length < s.params.rspDepth)
    (hr : r.2.Inv) : (s.complete r).ChannelInv where
  depth_le := by simpa using hroom
  wait_le := by simpa [or_imp, forall_and] using h.wait_le
  in_order := by simpa [List.pairwise_append] using ⟨h.in_order, h.wait_le⟩
  raised_ready hraised := by
    obtain ⟨e, rest, hin, hwait⟩ := h.raised_ready hraised
    exact ⟨e, _, by rw [State.complete_inFlight, hin, List.cons_append], hwait⟩
  responses_ok := by simpa [or_imp, forall_and, hr] using h.responses_ok
  taken_ok := h.taken_ok

/-- Settles O52: a reset establishes the invariant, the response side of an edge keeps it, and so does an accepted word, for which there is room. -/
theorem stepKeepsTheMachineInvariant : Obligations.StepKeepsTheMachineInvariant := fun s t hs h => by
  rcases step_cases h with ⟨-, -, rfl⟩ | ⟨-, hw, -, ⟨held, rfl⟩, -⟩ | ⟨-, hw, -, hready, rfl⟩
  · exact resetWith_inv hs.params_ok _
  · exact ⟨by simpa using hs.params_ok, fun _ => by simpa using hs.arch_ok hw,
      fun _ => afterCycle_channelInv (hs.channel_ok hw) held⟩
  · obtain ⟨-, hroom, -⟩ := (cmdReady_iff _ _).1 hready
    exact ⟨by simpa using hs.params_ok, fun _ => wordEffect_arch_inv s.params (hs.arch_ok hw) _,
      fun _ => complete_channelInv (afterCycle_channelInv (hs.channel_ok hw) none) (by simpa using hroom)
        (wordEffect_response_inv ..)⟩

/-! ## What a command answers and leaves unchanged -/

theorem stream_length {r : Response} (h : r.rcnt.toNat ≤ 4) : r.stream.length = r.rcnt.toNat := by
  simpa [Response.stream] using h

/-- Entry `k` of the stream output is lane `k` of RDATA. -/
theorem stream_getElem? {r : Response} {k : Fin 4} (h : k.val < r.rcnt.toNat) : r.stream[k.val]? = some (lane r.rdata k) := by
  rw [Response.stream, List.getElem?_take_of_lt h]
  match k with
  | 0 | 1 | 2 | 3 => rfl

theorem lane_eq_ofNat (w : Word) (k : Fin 4) : lane w k = BitVec.ofNat 8 (w.toNat / 2 ^ (24 - 8 * k.val)) :=
  BitVec.eq_of_toNat_eq (lane_toNat w k)

/-- Settles O22. -/
theorem lanesBeyondTheCountAreZero : Obligations.LanesBeyondTheCountAreZero := fun s w => by
  have hcount := (wordEffect_response_inv s.params s.arch w).count_le
  refine ⟨_, responds_wordEffect s w, hcount, stream_length hcount, fun k hk => ?_, fun hw => ?_, fun hw k hk => ?_⟩
  · rw [stream_getElem? hk, lane_eq_ofNat]
  · rw [wordEffect_of_query _ _ hw]; rfl
  · rw [← lane_toNat, (padded_wordEffect _ _ hw).lanes_zero k hk]; rfl

/-- Settles O26. -/
theorem queryReturnsTheStatusWord : Obligations.QueryReturnsTheStatusWord := fun s => by
  refine ⟨_, answers_query s, ?_⟩
  have hnul : (BitVec.ofBool s.params.nulTerminates).toNat * 256 = if s.params.nulTerminates = true then 256 else 0 := by
    cases s.params.nulTerminates <;> rfl
  rw [statusView_toNat, hnul]
  cases s.arch.dstate <;> rfl

/-- Settles O20. -/
theorem commandChangesOnlyRegistersAndOneResponse : Obligations.CommandChangesOnlyRegistersAndOneResponse := fun i s =>
  ⟨_, _, exec_eq i s, rfl, rfl, rfl, rfl, rfl, rfl, rfl, effect_arch_of_not_decoder s.params s.arch⟩

/-! ## The host's decode after its last character -/

/-- The scan does not look past a character that ends it. -/
theorem sourceScan_append_of_last {nul : Bool} {c : Byte} (h : (c2i nul c).cls = .pad ∨ (c2i nul c).cls = .term ∨ (c2i nul c).cls = .invalid)
    (before rest : List Byte) (t : List Index) : sourceScan nul t (before ++ c :: rest) = sourceScan nul t (before ++ [c]) := by
  induction before generalizing t with
  | nil =>
    rcases or_assoc.2 h with hc | hc
    · simp only [List.nil_append, sourceScan_of_terminator t _ hc]
    · simp only [List.nil_append, sourceScan_of_invalid t _ hc]
  | cons b before ih =>
    simp only [List.cons_append]
    rcases class_cases (c2i nul b).cls with hb | hb | hb | hb
    · by_cases ht : t.length = 3
      · simp only [sourceScan_of_alpha_full t _ hb ht, ih]
      · simp only [sourceScan_of_alpha_not_full t _ hb ht, ih]
    · simp only [sourceScan_of_ws t _ hb, ih]
    · simp only [sourceScan_of_terminator t _ hb]
    · simp only [sourceScan_of_invalid t _ hb]

/-- Settles O57: a host's decode is the source's scan. -/
theorem stoppingAfterATerminatorOrAFailureKeepsTheResult : Obligations.StoppingAfterATerminatorOrAFailureKeepsTheResult :=
  fun s before rest c hc => by
    simp only [hostDecode_eq_sourceDecode, sourceDecode, sourceScan_append_of_last hc]

end Sys2Proof.Proofs
end

section
/-!
PROOFS. One cycle of the channels: which words are accepted and run (R52), and that a response comes no earlier than `RSP_LATENCY` and stays offered
until it is taken (R54).
-/

namespace Sys2Proof.Proofs

open Sys2Proof Sys2Proof.Machine Sys2Proof.Stated Sys2Proof.Laws

/-! ## The command handshake -/

theorem step_of_breaksHandshake {s : State} (hw : s.wasReset = true) (hr : s.nextCycle.rst = false)
    (hb : s.breaksHandshake s.nextCycle = true) : step s = .refused .handshakeBroken := by
  simp [step, edge_eq, hw, hr, hb]

/-- The host breaks the handshake when it does not offer the word it holds (R52). -/
theorem breaksHandshake_of_held {s : State} {c : Cycle} {w : Word} (hh : s.cmdHeld = some w)
    (hc : c.cmdValid = false ∨ c.cmdData ≠ w) : s.breaksHandshake c = true := by
  rcases hc with hc | hc <;> simp [State.breaksHandshake, hh, hc]

theorem breaksHandshake_of_not_held {s : State} (c : Cycle) (hh : s.cmdHeld = none) : s.breaksHandshake c = false := by
  simp [State.breaksHandshake, hh]

section Kept
variable {s : State} (hw : s.wasReset = true) (hb : s.breaksHandshake s.nextCycle = false)
include hw hb

theorem acceptedWord_eq_some_iff {w : Word} : s.acceptedWord = some w ↔
    s.nextCycle.rst = false ∧ s.nextCycle.cmdValid = true ∧ s.cmdReady s.nextCycle = true ∧ s.nextCycle.cmdData = w := by
  unfold State.acceptedWord
  rcases edge_cases s with ⟨h1, e⟩ | ⟨-, h2, -⟩ | ⟨-, -, h3, -⟩ | ⟨-, -, -, h4, held, e⟩ | ⟨h1, -, -, h4, h5, e⟩
  · simp [e, h1]
  · simp [hw] at h2
  · simp [hb] at h3
  · rcases h4 with h4 | h4 <;> simp [e, h4]
  · simp [e, h1, h4, h5]

/-- A cycle without reset that accepts nothing moves the response side alone. -/
theorem step_of_not_accepted (hr : s.nextCycle.rst = false) (hn : s.acceptedWord = none) :
    ∃ held, step s = .next (afterCycle s held) := by
  unfold State.acceptedWord at hn
  unfold step
  rcases edge_cases s with ⟨h1, -⟩ | ⟨-, h2, -⟩ | ⟨-, -, h3, -⟩ | ⟨-, -, -, -, held, e⟩ | ⟨-, -, -, -, -, e⟩
  · simp [hr] at h1
  · simp [hw] at h2
  · simp [hb] at h3
  · exact ⟨held, by rw [e]⟩
  · simp [e] at hn

/-- A cycle that accepts the word of a command runs the command. -/
theorem step_runs_command (hr : s.nextCycle.rst = false) (hv : s.nextCycle.cmdValid = true)
    (hready : s.cmdReady s.nextCycle = true) {i : Instr} (hi : decode s.nextCycle.cmdData = .ok i) :
    step s = exec i (afterCycle s none) := by
  rw [step_of_accepted ((acceptedWord_eq_some_iff hw hb).2 ⟨hr, hv, hready, rfl⟩), wordEffect_of_ok _ _ hi, exec_eq,
    afterCycle_params, afterCycle_arch]

end Kept

/-- Settles O4. -/
theorem commandIsAcceptedExactlyByTheHandshake : Obligations.CommandIsAcceptedExactlyByTheHandshake := by
  refine ⟨fun s w hw hb => acceptedWord_eq_some_iff hw hb, fun _ _ _ => rfl, fun s hw hb hr hn => ?_, fun s w hw hh hr hc => ?_⟩
  · obtain ⟨held, h⟩ := step_of_not_accepted hw hb hr hn
    exact ⟨_, h, afterCycle_arch .., afterCycle_responses ..⟩
  · exact step_of_breaksHandshake hw hr (breaksHandshake_of_held hh hc)

/-- Settles O8. -/
theorem stepRunsTheDecodedCommand : Obligations.StepRunsTheDecodedCommand := fun _ _ hw hb hr hv hready hi =>
  step_runs_command hw hb hr hv hready hi

/-- With nothing in flight the response side has nothing to do. -/
theorem served_of_inFlight_nil {s : State} (c : Cycle) (h : s.inFlight = []) : s.served c = { s with rspRaised := false } := by
  simp [State.served, State.offered, h]

/-- Settles O9. -/
theorem offeredWordRunsInAnEmptyChannel : Obligations.OfferedWordRunsInAnEmptyChannel := by
  intro s c rest i hw hf hh hin hr hv hstall hdepth hi
  obtain rfl : s.nextCycle = c := nextCycle_of_inputs hin
  have hready : s.cmdReady s.nextCycle = true :=
    (cmdReady_iff ..).2 ⟨hr, by rw [served_inFlight_nil _ hf]; exact hdepth, hstall⟩
  have hafter : afterCycle s none = { s with inputs := rest, rspRaised := false } := by
    rw [afterCycle, served_inputs_comm, served_of_inFlight_nil _ hf, hin, ← hh]
    rfl
  rw [step_runs_command hw (breaksHandshake_of_not_held _ hh) hr hv hready hi, hafter]

/-! ## The response side of a cycle -/

section Served
variable {s : State} {c : Cycle}

theorem served_of_offered_none (h : s.offered c = none) :
    s.served c = { s with inFlight := s.inFlight.map InFlight.aged, rspRaised := false } := by
  simp [State.served, h]

theorem served_of_taken {r : Response} (h : s.offered c = some r) (hc : c.rspReady = true) : s.served c =
    { s with inFlight := s.inFlight.tail.map InFlight.aged, rspRaised := false, taken := s.taken ++ [r] } := by
  simp [State.served, h, hc]

theorem served_of_untaken {r : Response} (h : s.offered c = some r) (hc : c.rspReady = false) :
    s.served c = { s with inFlight := s.inFlight.map InFlight.aged, rspRaised := true } := by
  simp [State.served, h, hc]

end Served

/-- A cycle without reset does to the response side what `served` says, but that an accepted word puts one response behind the others. -/
theorem step_response_side {s t : State} (h : step s = .next t) (hr : s.nextCycle.rst = false) :
    t.taken = (s.served s.nextCycle).taken ∧ t.rspRaised = (s.served s.nextCycle).rspRaised ∧
      ∃ new, t.inFlight = (s.served s.nextCycle).inFlight ++ new ∧ (s.cmdReady s.nextCycle = false → new = []) := by
  rcases step_cases h with ⟨h1, -⟩ | ⟨-, -, -, ⟨held, rfl⟩, -⟩ | ⟨-, -, -, hready, rfl⟩
  · simp [hr] at h1
  · exact ⟨by simp, by simp, [], by simp, fun _ => rfl⟩
  · exact ⟨by simp, by simp, _, by rw [State.complete_inFlight, afterCycle_inFlight], by simp [hready]⟩

/-- What is offered and not taken is offered again, whatever the next cycle brings (R54). -/
theorem offered_again {s t : State} {r : Response} (h : step s = .next t) (hr : s.nextCycle.rst = false)
    (ho : s.offered s.nextCycle = some r) (hready : s.nextCycle.rspReady = false) (c : Cycle) : t.offered c = some r := by
  obtain ⟨-, hraised, new, hin, -⟩ := step_response_side h hr
  obtain ⟨e, rest, hs, hwait, -, rfl⟩ := offered_eq_some.1 ho
  rw [served_of_untaken ho hready] at hraised hin
  exact offered_eq_some.2 ⟨e.aged, rest.map InFlight.aged ++ new, by simp [hin, hs], by simp [hwait], .inl hraised, rfl⟩

/-- The response at position `p` of the responses is in flight, with at least `d` cycles to wait. -/
def Waits (p d : Nat) (s : State) : Prop :=
  ∃ before e behind, s.inFlight = before ++ e :: behind ∧ s.taken.length + before.length = p ∧ d ≤ e.wait

theorem Waits.mono {p d d' : Nat} {s : State} (hs : Waits p d s) (h : d' ≤ d) : Waits p d' s := by
  obtain ⟨before, e, behind, hin, hp, hd⟩ := hs
  exact ⟨before, e, behind, hin, hp, h.trans hd⟩

/-- A response that waits is not taken, and comes one cycle closer. -/
theorem Waits.step_closer {p d : Nat} {s t : State} (hs : Waits p (d + 1) s) (h : step s = .next t) (hr : s.nextCycle.rst = false) :
    Waits p d t := by
  obtain ⟨before, e, behind, hin, hp, hd⟩ := hs
  obtain ⟨htaken, -, new, ht, -⟩ := step_response_side h hr
  rw [Waits, htaken, ht]
  rcases served_moves s s.nextCycle with ⟨-, hf, hk⟩ | ⟨e', rest, hin', hwait', -, -, hf, hk⟩ <;> rw [hf, hk]
  · exact ⟨before.map InFlight.aged, e.aged, behind.map InFlight.aged ++ new, by simp [hin], by simpa using hp, Nat.le_sub_one_of_lt hd⟩
  · cases before with
    | nil =>
      obtain ⟨rfl, -⟩ := List.cons.inj (hin'.symm.trans hin)
      omega
    | cons b before =>
      obtain ⟨rfl, rfl⟩ := List.cons.inj (hin'.symm.trans hin)
      refine ⟨before.map InFlight.aged, e.aged, behind.map InFlight.aged ++ new, by simp, ?_, Nat.le_sub_one_of_lt hd⟩
      simp only [List.length_cons, List.length_append, List.length_map, List.length_nil] at hp ⊢
      omega

theorem Waits.runCycles_closer {p d n : Nat} {s t : State} (hs : Waits p (d + n) s) (h : runCycles n s = .next t) (hr : NoReset n s) :
    Waits p d t := by
  induction n generalizing s with
  | zero => cases h; exact hs
  | succ n ih =>
    obtain ⟨u, hu, ht⟩ := runCycles_succ_eq_next.1 h
    obtain ⟨hrst, hrest⟩ := noReset_succ hr hu
    exact ih (hs.step_closer hu hrst) ht hrest

/-- A response that has to wait is not offered when its turn comes. -/
theorem Waits.not_offered {p : Nat} {s : State} (hs : Waits p 1 s) (c : Cycle) :
    s.taken.length ≤ p ∧ (s.taken.length = p → s.offered c = none) := by
  obtain ⟨before, e, behind, hin, hp, hd⟩ := hs
  refine ⟨by omega, fun hturn => Option.eq_none_iff_forall_ne_some.2 fun r ho => ?_⟩
  obtain ⟨e', rest, hin', hwait, -, -⟩ := offered_eq_some.1 ho
  obtain rfl := List.eq_nil_of_length_eq_zero (show before.length = 0 by omega)
  obtain ⟨rfl, -⟩ := List.cons.inj (hin'.symm.trans hin)
  omega

theorem responses_length (s : State) : s.responses.length = s.taken.length + s.inFlight.length := by
  simp [State.responses]

/-- The response to an accepted word comes behind all the others and waits `RSP_LATENCY - 1` cycles. -/
theorem waits_of_accepted {s t : State} {w : Word} (hw : s.acceptedWord = some w) (h : step s = .next t) :
    Waits s.responses.length (s.params.rspLatency - 1) t := by
  obtain rfl := Host.Outcome.next.inj (h.symm.trans (step_of_accepted hw))
  exact ⟨(afterCycle s none).inFlight, _, [], rfl, by rw [← afterCycle_responses s none, responses_length]; rfl, by simp⟩

/-- The response to an accepted word is not offered before `RSP_LATENCY` cycles have passed (R54). -/
theorem not_offered_early {s u : State} {w : Word} {m : Nat} (hw : s.acceptedWord = some w) (hm : 1 ≤ m) (hlt : m < s.params.rspLatency)
    (hr : NoReset m s) (h : runCycles m s = .next u) (c : Cycle) :
    u.taken.length ≤ s.responses.length ∧ (u.taken.length = s.responses.length → u.offered c = none) := by
  obtain ⟨n, rfl⟩ := Nat.exists_eq_add_of_le' hm
  obtain ⟨t, ht, hu⟩ := runCycles_succ_eq_next.1 h
  obtain ⟨-, hrest⟩ := noReset_succ hr ht
  exact ((waits_of_accepted hw ht).mono (by omega)).runCycles_closer hu hrest |>.not_offered c

/-- Settles O6. -/
theorem offeredResponseStaysUntilTaken : Obligations.OfferedResponseStaysUntilTaken := by
  refine ⟨fun s t r h hr ho hready => ?_, fun s t h hr hc => ?_, fun _ _ _ => offered_again,
    fun _ _ _ _ c hw hm hlt hr h => not_offered_early hw hm hlt hr h c⟩
  · rw [(step_response_side h hr).1, served_of_taken ho hready]
  · rw [(step_response_side h hr).1]
    rcases served_moves s s.nextCycle with ⟨-, -, ht⟩ | ⟨_, _, -, -, ho, hready, -⟩
    · exact ht
    · simp [ho, hready] at hc

end Sys2Proof.Proofs
end

section
/-!
PROOFS. Runs of cycles: those in which no command is offered (R166, R177), and that every response is delivered and `cmd_ready` returns (R178).
-/

namespace Sys2Proof.Proofs

open Sys2Proof Sys2Proof.Machine Sys2Proof.Stated Sys2Proof.Laws

/-! ## Cycles without a command -/

theorem step_of_not_cmdValid {s : State} (hw : s.wasReset = true) (hh : s.cmdHeld = none) (hr : s.nextCycle.rst = false)
    (hv : s.nextCycle.cmdValid = false) : step s = .next (afterCycle s none) := by
  simp [step, edge_eq, hw, hr, hv, breaksHandshake_of_not_held _ hh]

/-- The induction over a run of cycles: where `P (n + 1)` gives a step that keeps S and the responses and leads to `P n`, a run of `n` cycles from
`P n` does. -/
theorem runCycles_keeps_of_step {P : Nat → State → Prop}
    (hstep : ∀ n s, P (n + 1) s → ∃ u, step s = .next u ∧ P n u ∧ u.arch = s.arch ∧ u.responses = s.responses)
    {n : Nat} {s : State} (hs : P n s) :
    ∃ t, runCycles n s = .next t ∧ P 0 t ∧ t.arch = s.arch ∧ t.responses = s.responses := by
  induction n generalizing s with
  | zero => exact ⟨s, rfl, hs, rfl, rfl⟩
  | succ n ih =>
    obtain ⟨u, hu, hP, harch, hresp⟩ := hstep n s hs
    obtain ⟨t, ht, hP, harch', hresp'⟩ := ih hP
    exact ⟨t, runCycles_succ_eq_next.2 ⟨u, hu, ht⟩, hP, harch'.trans harch, hresp'.trans hresp⟩

/-- A reset machine with no word held, and a schedule that neither resets nor offers a command. -/
structure Unoffered (s : State) : Prop where
  wasReset : s.wasReset = true
  notHeld : s.cmdHeld = none
  cycles : ∀ c ∈ s.inputs, c.rst = false ∧ c.cmdValid = false

/-- The quiet cycle after the schedule offers no command either. -/
theorem Unoffered.nextCycle {s : State} (h : Unoffered s) : s.nextCycle.rst = false ∧ s.nextCycle.cmdValid = false := by
  cases hin : s.inputs with
  | nil => rw [nextCycle_of_inputs_nil hin, h.notHeld]; exact ⟨rfl, rfl⟩
  | cons c rest => rw [nextCycle_of_inputs hin]; exact h.cycles c (by simp [hin])

/-- Settles O11. -/
theorem registersHoldWhileNoCommandIsOffered : Obligations.RegistersHoldWhileNoCommandIsOffered := fun n s hw hh hc => by
  obtain ⟨t, ht, -, harch, hresp⟩ := runCycles_keeps_of_step (P := fun _ => Unoffered) (n := n) (s := s)
    (fun _ s hs => ⟨_, step_of_not_cmdValid hs.wasReset hs.notHeld hs.nextCycle.1 hs.nextCycle.2,
      ⟨by simpa using hs.wasReset, rfl, fun c hc => hs.cycles c (List.mem_of_mem_tail (by simpa using hc))⟩, by simp, by simp⟩)
    ⟨hw, hh, hc⟩
  exact ⟨t, ht, harch, hresp⟩

theorem runOver_iff {s : State} : s.runOver = true ↔ s.wasReset = true ∧ s.inFlight = [] ∧ s.cmdHeld = none ∧
    ∀ c ∈ s.inputs.takeWhile fun c => !c.rst, c.cmdValid = false := by
  simp [State.runOver, and_assoc]

theorem responses_of_runOver {s : State} (h : s.runOver = true) : s.responses = s.taken := by
  obtain ⟨-, hf, -, -⟩ := runOver_iff.1 h
  simp [State.responses, hf]

/-- A cycle before the next reset offers no command to a machine whose run is over, and none after it does. -/
theorem nextCycle_of_runOver {s : State} (h : s.runOver = true) (hr : s.nextCycle.rst = false) :
    s.nextCycle.cmdValid = false ∧ ∀ c ∈ s.inputs.tail.takeWhile fun c => !c.rst, c.cmdValid = false := by
  obtain ⟨-, -, hh, hc⟩ := runOver_iff.1 h
  cases hin : s.inputs with
  | nil => rw [nextCycle_of_inputs_nil hin, hh]; simp [Cycle.quiet]
  | cons c rest =>
    rw [nextCycle_of_inputs hin] at hr ⊢
    simpa [hin, hr] using hc

/-- Such a cycle leaves the run over. -/
theorem runOver_step {s : State} (h : s.runOver = true) (hr : s.nextCycle.rst = false) :
    step s = .next (afterCycle s none) ∧ (afterCycle s none).runOver = true := by
  obtain ⟨hw, hf, hh, -⟩ := runOver_iff.1 h
  obtain ⟨hv, hrest⟩ := nextCycle_of_runOver h hr
  refine ⟨step_of_not_cmdValid hw hh hr hv, runOver_iff.2 ⟨by simpa using hw, ?_, rfl, by simpa using hrest⟩⟩
  rw [afterCycle_inFlight, served_inFlight_nil _ hf]

theorem nextCycle_rst_of_noReset {n : Nat} {s : State} (hr : NoReset (n + 1) s) : s.nextCycle.rst = false := by
  cases hin : s.inputs with
  | nil => rw [nextCycle_of_inputs_nil hin]; rfl
  | cons c rest => rw [nextCycle_of_inputs hin]; exact hr c (by simp [hin])

/-- Settles O12. -/
theorem endedRunKeepsItsResponsesAndRegisters : Obligations.EndedRunKeepsItsResponsesAndRegisters := fun n s hs hr => by
  have hkeep (n : Nat) (s : State) (h : s.runOver = true ∧ NoReset (n + 1) s) :
      ∃ u, step s = .next u ∧ (u.runOver = true ∧ NoReset n u) ∧ u.arch = s.arch ∧ u.responses = s.responses := by
    obtain ⟨hover, hr⟩ := h
    obtain ⟨hu, hover'⟩ := runOver_step hover (nextCycle_rst_of_noReset hr)
    exact ⟨_, hu, ⟨hover', (noReset_succ hr hu).2⟩, by simp, by simp⟩
  obtain ⟨t, ht, ⟨hover, -⟩, harch, hresp⟩ := runCycles_keeps_of_step (P := fun n s => s.runOver = true ∧ NoReset n s) hkeep ⟨hs, hr⟩
  refine ⟨responses_of_runOver hs, t, ht, hover, harch, ?_⟩
  rw [← responses_of_runOver hover, hresp, responses_of_runOver hs]

/-! ## Fair cycles: every response is delivered within bounds -/

/-- The next `n` cycles of the schedule are fair. -/
def FairFor (n : Nat) (s : State) : Prop := (∀ c ∈ s.inputs.take n, FairCycle c) ∧ n ≤ s.inputs.length

theorem fairFor_succ {n : Nat} {s u : State} (h : FairFor (n + 1) s) (hu : step s = .next u) :
    FairCycle s.nextCycle ∧ FairFor n u := by
  obtain ⟨hfair, hlen⟩ := h
  cases hin : s.inputs with
  | nil => simp [hin] at hlen
  | cons c rest =>
    simp only [hin, List.take_succ_cons, List.forall_mem_cons] at hfair
    rw [FairFor, step_inputs hu, nextCycle_of_inputs hin, hin]
    exact ⟨hfair.1, hfair.2, by simpa [hin] using hlen⟩

/-- What keeps the oldest response from being offered, when B64DP does not hold back, is its wait. -/
theorem wait_ne_zero_of_offered_none {s : State} {c : Cycle} {e : InFlight} {rest : List InFlight} (hc : c.rspHold = false)
    (hin : s.inFlight = e :: rest) (ho : s.offered c = none) : e.wait ≠ 0 := fun hwait => by
  obtain ⟨r, hr⟩ := offered_of_mayOffer ((mayOffer_iff s).2 ⟨e, rest, hin, hwait⟩) hc
  simp [ho] at hr

theorem map_rsp_map_aged (l : List InFlight) : (l.map InFlight.aged).map InFlight.rsp = l.map InFlight.rsp := by
  simp [Function.comp_def]

/-- Without reset the responses taken only grow at the end. -/
theorem step_taken_prefix {s u : State} (hu : step s = .next u) (hr : s.nextCycle.rst = false) : s.taken <+: u.taken := by
  obtain ⟨htaken, -⟩ := step_response_side hu hr
  rcases served_moves s s.nextCycle with ⟨-, -, h⟩ | ⟨e, _, -, -, -, -, -, h⟩ <;> rw [htaken, h]
  exact List.prefix_append ..

/-- The oldest responses `old`, none of which has more than `d` cycles to wait, are taken in order within `d` fair cycles and one more for each. -/
theorem taken_of_fairFor {n d : Nat} {s t : State} {old new : List InFlight} (hfair : FairFor n s) (hin : s.inFlight = old ++ new)
    (hwait : ∀ e ∈ old, e.wait ≤ d) (hn : d + old.length ≤ n) (h : runCycles n s = .next t) :
    s.taken ++ old.map InFlight.rsp <+: t.taken := by
  induction n generalizing d s old new with
  | zero =>
    cases h
    obtain rfl := List.eq_nil_of_length_eq_zero (show old.length = 0 by omega)
    simp
  | succ n ih =>
    obtain ⟨u, hu, ht⟩ := runCycles_succ_eq_next.1 h
    obtain ⟨⟨hrst, hready, hhold, -⟩, hrest⟩ := fairFor_succ hfair hu
    cases old with
    | nil =>
      have hlater := ih (d := 0) (old := []) hrest rfl (by simp) (by simp) ht
      simpa using ((step_taken_prefix hu hrst).trans (List.prefix_append ..)).trans hlater
    | cons e old =>
      obtain ⟨htaken, -, joined, hf, -⟩ := step_response_side hu hrst
      obtain ⟨hhead, hold⟩ := List.forall_mem_cons.1 hwait
      rw [List.length_cons] at hn
      rcases served_moves s s.nextCycle with ⟨ho, hf', hk⟩ | ⟨e', rest, hin', -, -, -, hf', hk⟩ <;>
        rw [hf'] at hf <;> rw [hk] at htaken
      · have hne := wait_ne_zero_of_offered_none hhold hin (ho.resolve_left (by simp [hready]))
        have hlater := ih (d := d - 1) (old := (e :: old).map InFlight.aged) (new := new.map InFlight.aged ++ joined) hrest
          (by simp [hf, hin]) (List.forall_mem_map.2 fun e he => Nat.sub_le_sub_right (hwait e he) 1)
          (by rw [List.length_map, List.length_cons]; omega) ht
        rwa [map_rsp_map_aged, htaken] at hlater
      · obtain ⟨rfl, rfl⟩ := List.cons.inj (hin'.symm.trans hin)
        have hlater := ih (d := d) (old := old.map InFlight.aged) (new := new.map InFlight.aged ++ joined) hrest
          (by simp [hf]) (List.forall_mem_map.2 fun e he => (Nat.sub_le ..).trans (hold e he))
          (by rw [List.length_map]; omega) ht
        rw [map_rsp_map_aged, htaken] at hlater
        simpa using hlater

/-- With room for one response at least and the oldest one due within `d` cycles, `cmd_ready` is 1 after at most `d` fair cycles. -/
theorem cmdReady_of_fairFor {n d : Nat} {s t : State} (hfair : FairFor n s) (hdepth : s.inFlight.length ≤ s.params.rspDepth)
    (hpos : 1 ≤ s.params.rspDepth) (hwait : ∀ e ∈ s.inFlight.head?, e.wait ≤ d) (hd : d < n) (h : runCycles n s = .next t) :
    ∃ m u, m ≤ d ∧ runCycles m s = .next u ∧ u.cmdReady u.nextCycle = true := by
  induction n generalizing d s with
  | zero => omega
  | succ n ih =>
    obtain ⟨u, hu, ht⟩ := runCycles_succ_eq_next.1 h
    obtain ⟨⟨hrst, hready, hhold, hstall⟩, hrest⟩ := fairFor_succ hfair hu
    by_cases hnow : s.cmdReady s.nextCycle = true
    · exact ⟨0, s, Nat.zero_le d, rfl, hnow⟩
    have hfull : s.params.rspDepth ≤ (s.served s.nextCycle).inFlight.length :=
      Nat.le_of_not_lt fun hroom => hnow ((cmdReady_iff ..).2 ⟨hrst, hroom, hstall⟩)
    obtain ⟨-, -, joined, hf, hjoined⟩ := step_response_side hu hrst
    rw [hjoined (Bool.eq_false_iff.2 hnow), List.append_nil] at hf
    rcases served_moves s s.nextCycle with ⟨ho, hf', -⟩ | ⟨e, rest, hin, -, -, -, hf', -⟩
    · cases hin : s.inFlight with
      | nil =>
        rw [hf', hin, List.map_nil, List.length_nil] at hfull
        omega
      | cons e rest =>
        have hne := wait_ne_zero_of_offered_none hhold hin (ho.resolve_left (by simp [hready]))
        have hle : e.wait ≤ d := hwait e (by simp [hin])
        rw [hf'] at hf
        obtain ⟨m, v, hm, hv, hvready⟩ := ih (d := d - 1) hrest (by rw [step_params hu]; simpa [hf] using hdepth)
          (by rwa [step_params hu]) (by simp [hf, hin]; omega) (by omega) ht
        exact ⟨m + 1, v, by omega, runCycles_succ_eq_next.2 ⟨u, hu, hv⟩, hvready⟩
    · rw [hf', List.length_map] at hfull
      rw [hin, List.length_cons] at hdepth
      omega

/-! ## Runs without end: every response is delivered, without a bound -/

section Run
variable {env : Nat → Cycle} {run : Nat → State} {N : Nat} (hrun : HardwareRun env run)
  (hhost : ∀ n, N ≤ n → (env n).rst = false ∧ (env n).rspReady = true)
include hrun hhost

/-- Along the run the responses only grow at the end. -/
theorem run_responses_prefix {n m : Nat} (hn : N ≤ n) (hm : n ≤ m) : (run n).responses <+: (run m).responses := by
  induction m, hm using Nat.le_induction with
  | base => exact List.prefix_rfl
  | succ m hm ih =>
    refine ih.trans ?_
    rcases step_responses (hrun.steps m) (hhost m (hn.trans hm)).1 with h | ⟨r, h⟩ <;> rw [h, under_responses]
    · exact List.prefix_append ..

theorem run_responses_getElem? {n m i : Nat} {r : Response} (hn : N ≤ n) (hm : n ≤ m) (hr : (run n).responses[i]? = some r) :
    (run m).responses[i]? = some r := by
  obtain ⟨hlt, rfl⟩ := List.getElem?_eq_some_iff.1 hr
  exact List.prefix_iff_getElem?.1 (run_responses_prefix hrun hhost hn hm) i hlt

/-- While the oldest response is not offered it stays the oldest, one cycle closer. -/
theorem run_head_of_offered_none {n : Nat} (hn : N ≤ n) {e : InFlight} {rest : List InFlight} (hin : (run n).inFlight = e :: rest)
    (ho : (run n).offered (env n) = none) :
    ∃ rest', (run (n + 1)).inFlight = e.aged :: rest' ∧ (run (n + 1)).taken = (run n).taken := by
  obtain ⟨-, htaken, hf⟩ := run_cycle hrun.toIsRun (hhost n hn).1
  rw [served_of_offered_none ho] at htaken hf
  rcases hf with hf | ⟨-, e', hf⟩
  · exact ⟨_, by rw [hf, hin]; rfl, htaken⟩
  · exact ⟨_, by rw [hf, hin]; rfl, htaken⟩

/-- The oldest response in flight is offered in some later cycle: else it would be due and held back for good. -/
theorem run_head_offered {n : Nat} (hn : N ≤ n) {e : InFlight} {rest : List InFlight} (hin : (run n).inFlight = e :: rest) :
    ∃ m, n ≤ m ∧ (run m).taken = (run n).taken ∧ (run m).offered (env m) = some e.rsp := by
  by_contra! hnever
  have hstays (k : Nat) : ∃ rest, (run (n + k)).inFlight = ⟨e.rsp, e.wait - k⟩ :: rest ∧ (run (n + k)).taken = (run n).taken := by
    induction k with
    | zero => exact ⟨rest, hin, rfl⟩
    | succ k ih =>
      obtain ⟨rest, hin, htaken⟩ := ih
      have hnone : (run (n + k)).offered (env (n + k)) = none := Option.eq_none_iff_forall_ne_some.2 fun r ho => by
        obtain ⟨e', rest', hin', -, -, rfl⟩ := offered_eq_some.1 ho
        obtain ⟨rfl, -⟩ := List.cons.inj (hin'.symm.trans hin)
        exact hnever _ (Nat.le_add_right n k) htaken ho
      obtain ⟨rest', hin', htaken'⟩ := run_head_of_offered_none hrun hhost (by omega) hin hnone
      exact ⟨rest', hin', htaken'.trans htaken⟩
  have hdue (m : Nat) (hm : n + e.wait ≤ m) : (run m).mayOffer = true := by
    obtain ⟨rest, hin, -⟩ := hstays (m - n)
    rw [Nat.add_sub_cancel' (by omega)] at hin
    exact (mayOffer_iff _).2 ⟨_, rest, hin, show e.wait - (m - n) = 0 by omega⟩
  obtain ⟨m, hm, hhold⟩ := hrun.offers (n + e.wait) hdue
  obtain ⟨rest, hin, htaken⟩ := hstays (m - n)
  rw [Nat.add_sub_cancel' (by omega)] at hin htaken
  obtain ⟨r, ho⟩ := offered_of_mayOffer (hdue m hm) hhold
  obtain ⟨e', rest', hin', -, -, rfl⟩ := offered_eq_some.1 ho
  obtain ⟨rfl, -⟩ := List.cons.inj (hin'.symm.trans hin)
  exact hnever m (by omega) htaken ho

/-- What is offered is taken, since the host is ready. -/
theorem run_taken_of_offered {n : Nat} (hn : N ≤ n) {r : Response} (ho : (run n).offered (env n) = some r) :
    (run (n + 1)).taken = (run n).taken ++ [r] := by
  obtain ⟨hrst, hready⟩ := hhost n hn
  rw [(run_cycle hrun.toIsRun hrst).2.1, served_of_taken ho hready]

/-- The response at position `i` is offered and taken when its turn comes: the ones before it are taken one after the other. -/
theorem run_delivers {n i : Nat} {r : Response} (hn : N ≤ n) (hr : (run n).responses[i]? = some r) (hi : (run n).taken.length ≤ i) :
    ∃ m, n ≤ m ∧ (run m).taken.length = i ∧ (run m).offered (env m) = some r ∧ (run (m + 1)).taken = (run m).taken ++ [r] := by
  obtain ⟨j, hj⟩ := Nat.exists_eq_add_of_le hi
  induction j generalizing n with
  | zero =>
    rw [State.responses, List.getElem?_append_right hi, hj] at hr
    cases hin : (run n).inFlight with
    | nil => simp [hin] at hr
    | cons e rest =>
      obtain rfl : e.rsp = r := by simpa [hin] using hr
      obtain ⟨m, hm, htaken, ho⟩ := run_head_offered hrun hhost hn hin
      exact ⟨m, hm, by rw [htaken]; exact hj.symm, ho, run_taken_of_offered hrun hhost (hn.trans hm) ho⟩
  | succ j ih =>
    have hlt : i < (run n).responses.length := (List.getElem?_eq_some_iff.1 hr).1
    rw [responses_length] at hlt
    cases hin : (run n).inFlight with
    | nil =>
      rw [hin, List.length_nil] at hlt
      omega
    | cons e rest =>
      obtain ⟨m, hm, htaken, ho⟩ := run_head_offered hrun hhost hn hin
      have htaken' := run_taken_of_offered hrun hhost (hn.trans hm) ho
      have hlen : (run (m + 1)).taken.length = (run n).taken.length + 1 := by rw [htaken', htaken]; simp
      obtain ⟨m', hm', hdelivered⟩ := ih (n := m + 1) (by omega)
        (run_responses_getElem? hrun hhost hn (by omega) hr) (by omega) (by omega)
      exact ⟨m', by omega, hdelivered⟩

/-- Without `cmd_ready` no response joins the others. -/
theorem run_step_of_not_cmdReady {n : Nat} (hn : N ≤ n) (hstop : (run n).cmdReady (env n) = false) :
    (run (n + 1)).inFlight = ((run n).served (env n)).inFlight ∧ (run (n + 1)).responses = (run n).responses := by
  obtain ⟨-, htaken, hf⟩ := run_cycle hrun.toIsRun (hhost n hn).1
  have hf := hf.resolve_right (by simp [hstop])
  exact ⟨hf, by rw [← served_responses (run n) (env n), State.responses, State.responses, hf, htaken]⟩

/-- If `cmd_ready` never returned, the host would come to take every response, and nothing would be in flight any more. -/
theorem run_emptied {n : Nat} (hn : N ≤ n) (hstop : ∀ m, n ≤ m → (run m).cmdReady (env m) = false) :
    ∃ m, n ≤ m ∧ ∀ k, m ≤ k → (run k).inFlight = [] := by
  have hsame (m : Nat) (hm : n ≤ m) : (run m).responses = (run n).responses := by
    induction m, hm using Nat.le_induction with
    | base => rfl
    | succ m hm ih => exact (run_step_of_not_cmdReady hrun hhost (hn.trans hm) (hstop m hm)).2.trans ih
  have hsome : ∃ m, n ≤ m ∧ (run m).inFlight = [] := by
    rcases List.eq_nil_or_concat (run n).inFlight with hin | ⟨rest, e, hin⟩
    · exact ⟨n, le_rfl, hin⟩
    · have hlen : (run n).responses.length = (run n).taken.length + rest.length + 1 := by simp [responses_length, hin, Nat.add_assoc]
      obtain ⟨m, hm, hturn, -, htaken⟩ := run_delivers hrun hhost hn (List.getElem?_eq_getElem (by omega)) (Nat.le_add_right _ rest.length)
      have hall := responses_length (run (m + 1))
      rw [hsame (m + 1) (by omega), hlen, htaken, List.length_append, hturn, List.length_singleton] at hall
      exact ⟨m + 1, by omega, List.eq_nil_of_length_eq_zero (by omega)⟩
  obtain ⟨m, hm, hempty⟩ := hsome
  refine ⟨m, hm, fun k hk => ?_⟩
  induction k, hk using Nat.le_induction with
  | base => exact hempty
  | succ k hk ih =>
    rw [(run_step_of_not_cmdReady hrun hhost (by omega) (hstop k (by omega))).1, served_inFlight_nil _ ih]

/-- `cmd_ready` is 1 again and again: else the empty channels would have room for good, and B64DP would stall for good. -/
theorem run_cmdReady_again (hdepth : 1 ≤ (run 0).params.rspDepth) (n : Nat) : ∃ m, n ≤ m ∧ (run m).cmdReady (env m) = true := by
  by_contra! hnever
  obtain ⟨m, hm, hempty⟩ := run_emptied hrun hhost (le_max_right n N)
    fun m hm => Bool.eq_false_iff.2 (hnever m (le_of_max_le_left hm))
  have hroom (k : Nat) (hk : m ≤ k) : (run k).mayAccept (env k) = true := by
    have hspace : ((run k).served (env k)).hasRoom = true := by
      rw [hasRoom_iff, served_inFlight_nil _ (hempty k hk), served_params, run_params hrun.toIsRun]
      exact hdepth
    simp [State.mayAccept, hspace, (hhost k (le_of_max_le_right (hm.trans hk))).1]
  obtain ⟨k, hk, hstall⟩ := hrun.accepts m hroom
  exact hnever k (le_of_max_le_left (hm.trans hk)) (by rw [cmdReady_eq_mayAccept, hroom k hk, hstall]; rfl)

end Run

/-- Settles O10: the bounded clauses cycle by cycle of the schedule, the unbounded one from weak fairness. -/
theorem fairCyclesDeliverEveryResponse : Obligations.FairCyclesDeliverEveryResponse := by
  refine ⟨fun n s t hinv hw hfair hlen hn h => ?_, fun s t hinv hw hfair hlen h => ?_,
    fun env run N hrun hparams hhost => ⟨fun _ _ _ hn hr hi => run_delivers hrun hhost hn hr hi,
      run_cmdReady_again hrun hhost hparams.2⟩⟩
  · exact taken_of_fairFor (new := []) ⟨hfair, hlen⟩ (List.append_nil _).symm (hinv.channel_ok hw).wait_le hn h
  · have hchannel := hinv.channel_ok hw
    obtain ⟨hlatency, hdepth⟩ := hinv.params_ok
    obtain ⟨m, u, hm, hu, hready⟩ := cmdReady_of_fairFor ⟨hfair, hlen⟩ hchannel.depth_le hdepth
      (fun e he => hchannel.wait_le e (List.mem_of_mem_head? he)) (Nat.sub_one_lt_of_lt hlatency) h
    exact ⟨m, u, by omega, hu, hready⟩

end Sys2Proof.Proofs
end
